-- ==== Sys2Proof/Word.lean ====
section
/-! DEFINITION. The widths the core works with: bytes, 16-bit words, 12-bit address operands, register
indices (spec/00_scope.md R5, R7). All values are unsigned. -/

namespace Sys2Proof

/-- An 8-bit byte: a `V` register, a timer, a memory cell, an immediate `NN` (R5). -/
abbrev Byte := BitVec 8

/-- A 16-bit word: `I`, `PC`, a stack slot, an instruction word (R5). -/
abbrev Word := BitVec 16

/-- The 12-bit operand `NNN` (R46). -/
abbrev Addr12 := BitVec 12

/-- The index of a general register: a 4-bit field, so every value names a register (R10). -/
abbrev Reg := Fin 16

end Sys2Proof
end

