-- ==== Sys2Proof/Syntax.lean ====
section
/-! DEFINITION. The 35 instructions, one constructor per row of spec/opcode_table.json in its order
(spec/30_encoding.md R49), with the operands of R46 as fields. -/

namespace Sys2Proof

/-- An instruction. `x`, `y` are the register fields X and Y, `nn` the byte NN, `nnn` the address NNN, `n` the
sprite height N. `shr` and `shl` keep their Y field, which the encoding has and the meaning ignores (R47). -/
inductive Instr where
  /-- `00E0` CLS (R97) -/
  | cls
  /-- `00EE` RET (R65) -/
  | ret
  /-- `0NNN` SYS NNN (R64) -/
  | sys (nnn : Addr12)
  /-- `1NNN` JP NNN (R66) -/
  | jp (nnn : Addr12)
  /-- `2NNN` CALL NNN (R67) -/
  | call (nnn : Addr12)
  /-- `3XNN` SE Vx, NN (R71) -/
  | seImm (x : Reg) (nn : Byte)
  /-- `4XNN` SNE Vx, NN (R72) -/
  | sneImm (x : Reg) (nn : Byte)
  /-- `5XY0` SE Vx, Vy (R73) -/
  | seReg (x y : Reg)
  /-- `6XNN` LD Vx, NN (R75) -/
  | ldImm (x : Reg) (nn : Byte)
  /-- `7XNN` ADD Vx, NN (R76) -/
  | addImm (x : Reg) (nn : Byte)
  /-- `8XY0` LD Vx, Vy (R77) -/
  | ldReg (x y : Reg)
  /-- `8XY1` OR Vx, Vy (R78) -/
  | orReg (x y : Reg)
  /-- `8XY2` AND Vx, Vy (R79) -/
  | andReg (x y : Reg)
  /-- `8XY3` XOR Vx, Vy (R80) -/
  | xorReg (x y : Reg)
  /-- `8XY4` ADD Vx, Vy (R81) -/
  | addReg (x y : Reg)
  /-- `8XY5` SUB Vx, Vy (R82) -/
  | subReg (x y : Reg)
  /-- `8XY6` SHR Vx (R83) -/
  | shr (x y : Reg)
  /-- `8XY7` SUBN Vx, Vy (R84) -/
  | subn (x y : Reg)
  /-- `8XYE` SHL Vx (R85) -/
  | shl (x y : Reg)
  /-- `9XY0` SNE Vx, Vy (R74) -/
  | sneReg (x y : Reg)
  /-- `ANNN` LD I, NNN (R88) -/
  | ldI (nnn : Addr12)
  /-- `BNNN` JP V0, NNN (R68) -/
  | jpV0 (nnn : Addr12)
  /-- `CXNN` RND Vx, NN (R86) -/
  | rnd (x : Reg) (nn : Byte)
  /-- `DXYN` DRW Vx, Vy, N (R98) -/
  | drw (x y : Reg) (n : Fin 16)
  /-- `EX9E` SKP Vx (R101) -/
  | skp (x : Reg)
  /-- `EXA1` SKNP Vx (R102) -/
  | sknp (x : Reg)
  /-- `FX07` LD Vx, DT (R104) -/
  | ldVxDt (x : Reg)
  /-- `FX0A` LD Vx, K (R103) -/
  | waitKey (x : Reg)
  /-- `FX15` LD DT, Vx (R105) -/
  | ldDtVx (x : Reg)
  /-- `FX18` LD ST, Vx (R106) -/
  | ldStVx (x : Reg)
  /-- `FX1E` ADD I, Vx (R89) -/
  | addI (x : Reg)
  /-- `FX29` LD F, Vx (R90) -/
  | ldF (x : Reg)
  /-- `FX33` LD B, Vx (R91) -/
  | bcd (x : Reg)
  /-- `FX55` LD [I], Vx (R92) -/
  | storeRegs (x : Reg)
  /-- `FX65` LD Vx, [I] (R93) -/
  | loadRegs (x : Reg)
  deriving DecidableEq, Repr

end Sys2Proof
end

