-- ==== Sys2Proof/WellFormed.lean ====
section
/-! DEFINITION. Which terms of `Instr` stand for an instruction of the machine. The field types already bound every
operand (spec/30_encoding.md R46); the one check left is the overlap of R48: `0NNN` never carries the two values
that are `00E0` and `00EE`. -/

namespace Sys2Proof

/-- `i` is an instruction the decoder can answer: `0NNN` with NNN neither 0x0E0 nor 0x0EE, or any other row
(R48, R51). -/
def Instr.wellFormed (i : Instr) : Bool :=
  match i with
  | .sys nnn => nnn != 0x0E0#12 && nnn != 0x0EE#12
  | .cls | .ret => true
  | .jp _ | .call _ | .ldI _ | .jpV0 _ => true
  | .seImm _ _ | .sneImm _ _ | .ldImm _ _ | .addImm _ _ | .rnd _ _ => true
  | .seReg _ _ | .sneReg _ _ | .ldReg _ _ | .orReg _ _ | .andReg _ _ | .xorReg _ _ => true
  | .addReg _ _ | .subReg _ _ | .shr _ _ | .subn _ _ | .shl _ _ => true
  | .drw _ _ _ => true
  | .skp _ | .sknp _ | .waitKey _ => true
  | .ldVxDt _ | .ldDtVx _ | .ldStVx _ => true
  | .addI _ | .ldF _ | .bcd _ | .storeRegs _ | .loadRegs _ => true

end Sys2Proof
end

