-- ==== Sys2Proof/Decode.lean ====
section
/-! DEFINITION. From instruction bytes to `Instr` and back (spec/30_encoding.md R44 to R54). The decoder is total: a
word that no row of R49 matches is rejected under the name of its set in R50. The encoder is written from the
formats of R47. The rows of spec/opcode_table.json stand here once more as data, so that decoder and table can be
held against each other. -/

namespace Sys2Proof

/-- Why bytes are no instruction: one name for each set of unknown words of R50, and one for fewer than two bytes
(R44: every instruction is exactly two). A one-byte list never comes from `step`, which fetches two. -/
inductive DecodeReject where
  /-- `5XYN` with N other than 0 -/
  | unknown5XYN (op : Word)
  /-- `8XYN` with N in 8, 9, A, B, C, D, F -/
  | unknown8XYN (op : Word)
  /-- `9XYN` with N other than 0 -/
  | unknown9XYN (op : Word)
  /-- `EXNN` with NN neither 9E nor A1 -/
  | unknownEXNN (op : Word)
  /-- `FXNN` with NN none of 07, 0A, 15, 18, 1E, 29, 33, 55, 65 -/
  | unknownFXNN (op : Word)
  /-- fewer than two bytes -/
  | truncated
  deriving DecidableEq, Repr

/-! ## Fields (R45, R46) -/

/-- `n1 = op[15:12]` -/
def nibble1 (op : Word) : BitVec 4 := op.extractLsb' 12 4

/-- `n4 = op[3:0]` -/
def nibble4 (op : Word) : BitVec 4 := op.extractLsb' 0 4

/-- `X = n2 = op[11:8]` -/
def fieldX (op : Word) : Reg := (op.extractLsb' 8 4).toFin

/-- `Y = n3 = op[7:4]` -/
def fieldY (op : Word) : Reg := (op.extractLsb' 4 4).toFin

/-- `N = n4 = op[3:0]` -/
def fieldN (op : Word) : Fin 16 := (nibble4 op).toFin

/-- `NN = n3 : n4 = op[7:0]` -/
def fieldNN (op : Word) : Byte := op.extractLsb' 0 8

/-- `NNN = n2 : n3 : n4 = op[11:0]` -/
def fieldNNN (op : Word) : Addr12 := op.extractLsb' 0 12

/-! ## Decoding (R48) -/

/-- The words with n1 = 8: `8XY0` to `8XY7` and `8XYE` (R48 step 2). -/
def decode8 (op : Word) : Except DecodeReject Instr :=
  match (nibble4 op).toNat with
  | 0x0 => .ok (.ldReg (fieldX op) (fieldY op))
  | 0x1 => .ok (.orReg (fieldX op) (fieldY op))
  | 0x2 => .ok (.andReg (fieldX op) (fieldY op))
  | 0x3 => .ok (.xorReg (fieldX op) (fieldY op))
  | 0x4 => .ok (.addReg (fieldX op) (fieldY op))
  | 0x5 => .ok (.subReg (fieldX op) (fieldY op))
  | 0x6 => .ok (.shr (fieldX op) (fieldY op))
  | 0x7 => .ok (.subn (fieldX op) (fieldY op))
  | 0xE => .ok (.shl (fieldX op) (fieldY op))
  | _ => .error (.unknown8XYN op)

/-- The words with n1 = E: `EX9E` and `EXA1` (R48 step 2). -/
def decodeE (op : Word) : Except DecodeReject Instr :=
  match (fieldNN op).toNat with
  | 0x9E => .ok (.skp (fieldX op))
  | 0xA1 => .ok (.sknp (fieldX op))
  | _ => .error (.unknownEXNN op)

/-- The words with n1 = F (R48 step 2). -/
def decodeF (op : Word) : Except DecodeReject Instr :=
  match (fieldNN op).toNat with
  | 0x07 => .ok (.ldVxDt (fieldX op))
  | 0x0A => .ok (.waitKey (fieldX op))
  | 0x15 => .ok (.ldDtVx (fieldX op))
  | 0x18 => .ok (.ldStVx (fieldX op))
  | 0x1E => .ok (.addI (fieldX op))
  | 0x29 => .ok (.ldF (fieldX op))
  | 0x33 => .ok (.bcd (fieldX op))
  | 0x55 => .ok (.storeRegs (fieldX op))
  | 0x65 => .ok (.loadRegs (fieldX op))
  | _ => .error (.unknownFXNN op)

/-- The words other than the two exact ones: the leading nibble selects, with the fixed trailing nibbles where a row has
them (R48 steps 2 to 4). -/
def decodeLeading (op : Word) : Except DecodeReject Instr :=
  match (nibble1 op).toNat with
  | 0x0 => .ok (.sys (fieldNNN op))
  | 0x1 => .ok (.jp (fieldNNN op))
  | 0x2 => .ok (.call (fieldNNN op))
  | 0x3 => .ok (.seImm (fieldX op) (fieldNN op))
  | 0x4 => .ok (.sneImm (fieldX op) (fieldNN op))
  | 0x5 => if nibble4 op = 0x0#4 then .ok (.seReg (fieldX op) (fieldY op)) else .error (.unknown5XYN op)
  | 0x6 => .ok (.ldImm (fieldX op) (fieldNN op))
  | 0x7 => .ok (.addImm (fieldX op) (fieldNN op))
  | 0x8 => decode8 op
  | 0x9 => if nibble4 op = 0x0#4 then .ok (.sneReg (fieldX op) (fieldY op)) else .error (.unknown9XYN op)
  | 0xA => .ok (.ldI (fieldNNN op))
  | 0xB => .ok (.jpV0 (fieldNNN op))
  | 0xC => .ok (.rnd (fieldX op) (fieldNN op))
  | 0xD => .ok (.drw (fieldX op) (fieldY op) (fieldN op))
  | 0xE => decodeE op
  | _ => decodeF op

/-- The decoder on a word: the two exact words first, then by the leading nibble (R48). Only `0NNN` overlaps other rows,
so the exact words first is all that the precedence decides. -/
def decodeWord (op : Word) : Except DecodeReject Instr :=
  if op = 0x00E0#16 then .ok .cls
  else if op = 0x00EE#16 then .ok .ret
  else decodeLeading op

/-- A word from its two bytes in memory order, the first the most significant (R32, R44). -/
def wordOfBytes (hi lo : Byte) : Word := hi ++ lo

/-- The decoder on a list of bytes: the first instruction and the bytes after it. -/
def decode : List Byte → Except DecodeReject (Instr × List Byte)
  | hi :: lo :: rest => (decodeWord (wordOfBytes hi lo)).map (fun i => (i, rest))
  | [_] => .error .truncated
  | [] => .error .truncated

/-- The decoder on an instruction whose bits are `w` as spec/opcode_table.json numbers them: one word, bit 0 its
least significant, stored with its most significant byte first. Bits from `nbits` up are 0. -/
def decodeTableWord (nbits w : Nat) : Option Instr :=
  let op : Word := BitVec.ofNat 16 (w % 2 ^ nbits)
  match decode [op.extractLsb' 8 8, op.extractLsb' 0 8] with
  | .ok (i, _) => some i
  | .error _ => none

/-! ## Encoding (R47) -/

/-- The nibble of a register index or of a sprite height. -/
def nib (k : Fin 16) : BitVec 4 := BitVec.ofFin k

/-- Format NNN: `n1 : NNN`. -/
def formatNNN (n1 : BitVec 4) (nnn : Addr12) : Word := n1 ++ nnn

/-- Format XNN, and XSS with the sub-opcode in the place of NN: `n1 : X : NN`. -/
def formatXNN (n1 : BitVec 4) (x : Reg) (nn : Byte) : Word := n1 ++ (nib x ++ nn : BitVec 12)

/-- Format XYS with sub-opcode `sub`, and XYN with `sub` = N: `n1 : X : Y : sub`. -/
def formatXYS (n1 : BitVec 4) (x y : Reg) (sub : BitVec 4) : Word :=
  n1 ++ (nib x ++ (nib y ++ sub : BitVec 8) : BitVec 12)

/-- The word of an instruction (R47, R49). -/
def encode (i : Instr) : Word :=
  match i with
  | .cls => 0x00E0#16
  | .ret => 0x00EE#16
  | .sys nnn => formatNNN 0x0 nnn
  | .jp nnn => formatNNN 0x1 nnn
  | .call nnn => formatNNN 0x2 nnn
  | .seImm x nn => formatXNN 0x3 x nn
  | .sneImm x nn => formatXNN 0x4 x nn
  | .seReg x y => formatXYS 0x5 x y 0x0
  | .ldImm x nn => formatXNN 0x6 x nn
  | .addImm x nn => formatXNN 0x7 x nn
  | .ldReg x y => formatXYS 0x8 x y 0x0
  | .orReg x y => formatXYS 0x8 x y 0x1
  | .andReg x y => formatXYS 0x8 x y 0x2
  | .xorReg x y => formatXYS 0x8 x y 0x3
  | .addReg x y => formatXYS 0x8 x y 0x4
  | .subReg x y => formatXYS 0x8 x y 0x5
  | .shr x y => formatXYS 0x8 x y 0x6
  | .subn x y => formatXYS 0x8 x y 0x7
  | .shl x y => formatXYS 0x8 x y 0xE
  | .sneReg x y => formatXYS 0x9 x y 0x0
  | .ldI nnn => formatNNN 0xA nnn
  | .jpV0 nnn => formatNNN 0xB nnn
  | .rnd x nn => formatXNN 0xC x nn
  | .drw x y n => formatXYS 0xD x y (nib n)
  | .skp x => formatXNN 0xE x 0x9E
  | .sknp x => formatXNN 0xE x 0xA1
  | .ldVxDt x => formatXNN 0xF x 0x07
  | .waitKey x => formatXNN 0xF x 0x0A
  | .ldDtVx x => formatXNN 0xF x 0x15
  | .ldStVx x => formatXNN 0xF x 0x18
  | .addI x => formatXNN 0xF x 0x1E
  | .ldF x => formatXNN 0xF x 0x29
  | .bcd x => formatXNN 0xF x 0x33
  | .storeRegs x => formatXNN 0xF x 0x55
  | .loadRegs x => formatXNN 0xF x 0x65

/-- The two bytes of an instruction in memory order, most significant first (R44). -/
def encodeBytes (i : Instr) : List Byte := [(encode i).extractLsb' 8 8, (encode i).extractLsb' 0 8]

/-! ## The opcode table as data (R49) -/

/-- Mask and match value of an instruction's row in R49. -/
def rowOf (i : Instr) : Word × Word :=
  match i with
  | .cls => (0xFFFF, 0x00E0)
  | .ret => (0xFFFF, 0x00EE)
  | .sys _ => (0xF000, 0x0000)
  | .jp _ => (0xF000, 0x1000)
  | .call _ => (0xF000, 0x2000)
  | .seImm _ _ => (0xF000, 0x3000)
  | .sneImm _ _ => (0xF000, 0x4000)
  | .seReg _ _ => (0xF00F, 0x5000)
  | .ldImm _ _ => (0xF000, 0x6000)
  | .addImm _ _ => (0xF000, 0x7000)
  | .ldReg _ _ => (0xF00F, 0x8000)
  | .orReg _ _ => (0xF00F, 0x8001)
  | .andReg _ _ => (0xF00F, 0x8002)
  | .xorReg _ _ => (0xF00F, 0x8003)
  | .addReg _ _ => (0xF00F, 0x8004)
  | .subReg _ _ => (0xF00F, 0x8005)
  | .shr _ _ => (0xF00F, 0x8006)
  | .subn _ _ => (0xF00F, 0x8007)
  | .shl _ _ => (0xF00F, 0x800E)
  | .sneReg _ _ => (0xF00F, 0x9000)
  | .ldI _ => (0xF000, 0xA000)
  | .jpV0 _ => (0xF000, 0xB000)
  | .rnd _ _ => (0xF000, 0xC000)
  | .drw _ _ _ => (0xF000, 0xD000)
  | .skp _ => (0xF0FF, 0xE09E)
  | .sknp _ => (0xF0FF, 0xE0A1)
  | .ldVxDt _ => (0xF0FF, 0xF007)
  | .waitKey _ => (0xF0FF, 0xF00A)
  | .ldDtVx _ => (0xF0FF, 0xF015)
  | .ldStVx _ => (0xF0FF, 0xF018)
  | .addI _ => (0xF0FF, 0xF01E)
  | .ldF _ => (0xF0FF, 0xF029)
  | .bcd _ => (0xF0FF, 0xF033)
  | .storeRegs _ => (0xF0FF, 0xF055)
  | .loadRegs _ => (0xF0FF, 0xF065)

/-- The rows of R49 in dispatch order, as (mask, match). -/
def opcodeRows : List (Word × Word) :=
  [(0xFFFF, 0x00E0), (0xFFFF, 0x00EE), (0xF000, 0x0000), (0xF000, 0x1000), (0xF000, 0x2000)] ++
  [(0xF000, 0x3000), (0xF000, 0x4000), (0xF00F, 0x5000), (0xF000, 0x6000), (0xF000, 0x7000)] ++
  [(0xF00F, 0x8000), (0xF00F, 0x8001), (0xF00F, 0x8002), (0xF00F, 0x8003), (0xF00F, 0x8004)] ++
  [(0xF00F, 0x8005), (0xF00F, 0x8006), (0xF00F, 0x8007), (0xF00F, 0x800E), (0xF00F, 0x9000)] ++
  [(0xF000, 0xA000), (0xF000, 0xB000), (0xF000, 0xC000), (0xF000, 0xD000), (0xF0FF, 0xE09E)] ++
  [(0xF0FF, 0xE0A1), (0xF0FF, 0xF007), (0xF0FF, 0xF00A), (0xF0FF, 0xF015), (0xF0FF, 0xF018)] ++
  [(0xF0FF, 0xF01E), (0xF0FF, 0xF029), (0xF0FF, 0xF033), (0xF0FF, 0xF055), (0xF0FF, 0xF065)]

/-- The first row of R49, in dispatch order, that a word matches. -/
def firstRow (op : Word) : Option (Word × Word) :=
  opcodeRows.find? (fun row => op &&& row.1 == row.2)

end Sys2Proof
end

