-- ==== Sys2Proof/Config.lean ====
section
/-! DEFINITION. The two parameters the spec leaves open for a model (spec/00_scope.md R6): the font table and
the random byte of a cycle. -/

namespace Sys2Proof

/-- The parameter `FONT`: 80 bytes, `FONT[0..79]` (R6, R30). -/
abbrev Font := Vector Byte 80

namespace Config

/-- FREE VALUE (log entry 2): the draw `rnd` the host hands to the cycle with this number (R6, D11). It has no body,
so a statement that mentions it holds for every draw. -/
opaque rnd : Nat → Byte

/-- The conventional glyphs of the digits 0 to 3, five rows each (R30). -/
def glyphs0to3 : List Byte :=
  [0xF0, 0x90, 0x90, 0x90, 0xF0] ++ [0x20, 0x60, 0x20, 0x20, 0x70] ++
  [0xF0, 0x10, 0xF0, 0x80, 0xF0] ++ [0xF0, 0x10, 0xF0, 0x10, 0xF0]

/-- The conventional glyphs of the digits 4 to 7 (R30). -/
def glyphs4to7 : List Byte :=
  [0x90, 0x90, 0xF0, 0x10, 0x10] ++ [0xF0, 0x80, 0xF0, 0x10, 0xF0] ++
  [0xF0, 0x80, 0xF0, 0x90, 0xF0] ++ [0xF0, 0x10, 0x20, 0x40, 0x40]

/-- The conventional glyphs of the digits 8 to B (R30). -/
def glyphs8toB : List Byte :=
  [0xF0, 0x90, 0xF0, 0x90, 0xF0] ++ [0xF0, 0x90, 0xF0, 0x10, 0xF0] ++
  [0xF0, 0x90, 0xF0, 0x90, 0x90] ++ [0xE0, 0x90, 0xE0, 0x90, 0xE0]

/-- The conventional glyphs of the digits C to F (R30). -/
def glyphsCtoF : List Byte :=
  [0xF0, 0x80, 0x80, 0x80, 0xF0] ++ [0xE0, 0x90, 0x90, 0x90, 0xE0] ++
  [0xF0, 0x80, 0xF0, 0x80, 0xF0] ++ [0xF0, 0x80, 0xF0, 0x80, 0x80]

/-- PRESUMED (log entry 1): the default the spec gives the parameter `FONT` in R30, which the spec itself takes
from general knowledge. Only `State.reset` uses it; every other definition takes the font from the state. -/
def defaultFont : Font :=
  ⟨(glyphs0to3 ++ glyphs4to7 ++ glyphs8toB ++ glyphsCtoF).toArray, rfl⟩

end Config

end Sys2Proof
end

