-- ==== Sys2Proof/Machine/State.lean ====
section
/-! DEFINITION. The state of the core (spec/10_state.md R9), the ways a step can stop (none: R112), the non-fatal
conditions and the answer of `load_program`, and the state after reset (R26, spec/70_reset_and_hazards.md R128). -/

namespace Sys2Proof.Machine

/-- The memory (R21, R28): the bytes that differ from the reset contents, as (address, byte) pairs with rising
addresses, beside the parameter `FONT` that the reset contents are made of. `font` is the parameter of R6 and not
state of the machine: nothing writes it (log entry 1). -/
structure Memory where
  font : Font
  cells : List Host.Cell
  deriving DecidableEq, Repr

/-- One grid of 64 columns by 32 rows (R19), held row by row: row `y` is a vector of 64 cells, `true` is on
(log entry 9). -/
abbrev Framebuffer := Vector (Vector Bool 64) 32

/-- All the core holds between two cycles (R9), with the two parameters of R6 that its steps read. -/
structure State where
  /-- `V[0..15]` (R10) -/
  v : Vector Byte 16
  /-- `I` (R12) -/
  i : Word
  /-- `PC` (R13) -/
  pc : Word
  /-- `STACK[0..15]` (R14) -/
  stack : Vector Word 16
  /-- `SP`, 0 to 16 (R15; log entry 5) -/
  sp : Fin 17
  /-- `DT` (R16) -/
  dt : Byte
  /-- `ST` (R17) -/
  st : Byte
  /-- `TONE` (R18) -/
  tone : Bool
  /-- `FB` (R19) -/
  fb : Framebuffer
  /-- `KEYS[0..15]`, `true` is pressed (R20) -/
  keys : Vector Bool 16
  /-- `MEM` (R21) -/
  mem : Memory
  /-- `DIAG`: bit 0 UNK, bit 1 SOVF, bit 2 SUNF (R22) -/
  diag : BitVec 3
  /-- The MODEL's own counter, not the spec's: the number of the next draw `rnd` (R6; log entry 2). -/
  draws : Nat
  deriving DecidableEq, Repr

/-- Why the machine stops with a fault. The spec gives it no way to: "the step function is total and returns a state;
it has no fault outcome and no refusal outcome" (R112). So there is no constructor, and nothing raises one. -/
inductive Fault where
  deriving DecidableEq, Repr

/-- Why an instruction has no meaning. Nothing raises one in this model (R112). -/
inductive Refusal where
  /-- An arm of `exec` without a meaning would raise it, naming the row of the opcode table; safe. No arm does. -/
  | notModelled (mnemonic : String)
  deriving DecidableEq, Repr

/-- The non-fatal conditions met inside a cycle (R107). -/
inductive Condition where
  /-- the fetched word matches no row (R108) -/
  | unknownOpcode
  /-- `2NNN` with a full stack (R109) -/
  | stackOverflow
  /-- `00EE` with an empty stack (R110) -/
  | stackUnderflow
  deriving DecidableEq, Repr

/-- What `load_program` answers (R129, R130). -/
inductive LoadResult where
  | ok
  | programTooLarge
  deriving DecidableEq, Repr

/-- The state a newly constructed or reset core is in (R26, R128, R131), for any `FONT` and any number of the next
draw. -/
def State.powerOn (font : Font) (draws : Nat) : State where
  v := Vector.replicate 16 0x00#8
  i := 0x0000#16
  pc := 0x0200#16
  stack := Vector.replicate 16 0x0000#16
  sp := 0
  dt := 0x00#8
  st := 0x00#8
  tone := false
  fb := Vector.replicate 32 (Vector.replicate 64 false)
  keys := Vector.replicate 16 false
  mem := ⟨font, []⟩
  diag := 0b000#3
  draws := draws

/-- The machine right after reset, with the default `FONT` of R30 (log entry 1) and the draws numbered from 0
(log entry 2). -/
def State.reset : State := State.powerOn Config.defaultFont 0

end Sys2Proof.Machine
end

