-- ==== Sys2Proof/Machine/Ops.lean ====
section
/-! DEFINITION. The named operations over memory, registers, program counter, stack, framebuffer and keys
(spec/00_scope.md R8), the in-place handling of a condition (spec/60_exceptions.md R107 to R110), and the parts of a
cycle around the handler (spec/40_cycle.md R56 to R62). -/

namespace Sys2Proof.Machine

/-! ## Memory (R28, R29, R31) -/

/-- What an unlisted address reads as: the reset contents, `FONT` at 0x000..0x04F and zero above (R29). -/
def Memory.resetByte (m : Memory) (a : Nat) : Byte := if h : a < 80 then m.font[a] else 0x00#8

/-- The byte listed for an address, if one is. -/
def lookupCell (a : Nat) : List Host.Cell → Option Byte
  | [] => none
  | c :: rest => if c.1 = a then some c.2 else lookupCell a rest

/-- The list with (a, b) at its place among rising addresses. -/
def insertCell (a : Nat) (b : Byte) : List Host.Cell → List Host.Cell
  | [] => [(a, b)]
  | c :: rest =>
    if a < c.1 then (a, b) :: c :: rest
    else if a = c.1 then (a, b) :: rest
    else c :: insertCell a b rest

/-- The list without any pair for address `a`. -/
def eraseCell (a : Nat) : List Host.Cell → List Host.Cell
  | [] => []
  | c :: rest => if c.1 = a then eraseCell a rest else c :: eraseCell a rest

/-- `MEM[a]` for an address already reduced. -/
def Memory.byteAt (m : Memory) (a : Nat) : Byte := (lookupCell a m.cells).getD (m.resetByte a)

/-- `MEM[a] <- b` for an address already reduced; a byte equal to the reset contents is not listed. -/
def Memory.setByte (m : Memory) (a : Nat) (b : Byte) : Memory :=
  if b = m.resetByte a then { m with cells := eraseCell a m.cells }
  else { m with cells := insertCell a b m.cells }

/-- Every address of the list is above `lo`, and the addresses rise. -/
def risingFrom (lo : Nat) : List Host.Cell → Bool
  | [] => true
  | c :: rest => decide (lo ≤ c.1) && risingFrom (c.1 + 1) rest

/-- The canonical form: rising addresses below 4096, and no byte equal to the reset contents (log entry 7). -/
def Memory.wf (m : Memory) : Bool :=
  risingFrom 0 m.cells && m.cells.all (fun c => decide (c.1 < 4096) && c.2 != m.resetByte c.1)

/-- `MemRead(addr, 1) = MEM[addr mod 4096]` (R31). -/
def State.memRead (s : State) (addr : Nat) : Byte := s.mem.byteAt (addr % 4096)

/-- `MemWrite(addr, 1, b) : MEM[addr mod 4096] <- b` (R31). -/
def State.memWrite (s : State) (addr : Nat) (b : Byte) : State :=
  { s with mem := s.mem.setByte (addr % 4096) b }

/-! ## Registers, program counter, stack -/

/-- `V[x]` (R8, R10) -/
def State.getV (s : State) (x : Reg) : Byte := s.v[x]

/-- `V[x] <- b` (R8, R10) -/
def State.setV (s : State) (x : Reg) (b : Byte) : State := { s with v := s.v.set x b }

/-- The reduction modulo 4096 at a write of `I` or `PC` (R12, R13). -/
def mod4096 (n : Nat) : Word := BitVec.ofNat 16 (n % 4096)

/-- `PC <- n mod 4096` (R13) -/
def State.setPc (s : State) (n : Nat) : State := { s with pc := mod4096 n }

/-- `PC <- (PC + 2) mod 4096`: the advance of a cycle and of a taken skip (R58, R70). -/
def State.advancePc (s : State) : State := s.setPc (s.pc.toNat + 2)

/-- `PC <- (PC - 2) mod 4096`, with 4096 added first so that nothing goes below zero (R13, R103). -/
def State.rollBackPc (s : State) : State := s.setPc (4096 + s.pc.toNat - 2)

/-- A taken skip advances once more (R70). -/
def State.skipIf (s : State) (taken : Bool) : State := if taken then s.advancePc else s

/-- `I <- n mod 4096` (R12) -/
def State.setI (s : State) (n : Nat) : State := { s with i := mod4096 n }

/-- `STACK[k]` (R14) -/
def State.getStack (s : State) (k : Fin 16) : Word := s.stack[k]

/-! ## Framebuffer and keys -/

/-- The cell at column `x`, row `y` (R19). -/
def pixel (fb : Framebuffer) (x : Fin 64) (y : Fin 32) : Bool := fb[y][x]

/-- `FB[x][y] <- b` (R19) -/
def setPixel (fb : Framebuffer) (x : Fin 64) (y : Fin 32) (b : Bool) : Framebuffer :=
  fb.set y (fb[y].set x b)

/-- Every cell set to `b` (R97, R108). -/
def filled (b : Bool) : Framebuffer := Vector.replicate 32 (Vector.replicate 64 b)

/-- `KEYS[k]` (R20) -/
def State.getKey (s : State) (k : Fin 16) : Bool := s.keys[k]

/-! ## Conditions (R107 to R110) -/

/-- The code of a condition, which is the position of its bit in `DIAG` (R107). -/
def Condition.code (c : Condition) : Nat :=
  match c with
  | .unknownOpcode => 0
  | .stackOverflow => 1
  | .stackUnderflow => 2

/-- The bit of a condition in `DIAG` (R22, R107). -/
def Condition.bit (c : Condition) : BitVec 3 := 0b001#3 <<< c.code

/-- `raise <Condition>`: its sticky flag is set; UnknownOpcode sets the framebuffer all-on as well; nothing else
changes and control goes nowhere (R108, R109, R110, R115). -/
def raise (c : Condition) (s : State) : State :=
  match c with
  | .unknownOpcode => { s with fb := filled true, diag := s.diag ||| c.bit }
  | .stackOverflow => { s with diag := s.diag ||| c.bit }
  | .stackUnderflow => { s with diag := s.diag ||| c.bit }

/-! ## Around the handler (R56) -/

/-- Step 1, the fetch: the bytes at `PC` and `PC + 1`, the first the most significant (R32, R57). -/
def State.fetchWord (s : State) : Word := wordOfBytes (s.memRead s.pc.toNat) (s.memRead (s.pc.toNat + 1))

/-- A timer's decay: one less, and zero stays zero (R61). -/
def decayed (t : Byte) : Byte := if t = 0x00#8 then 0x00#8 else t - 1

/-- Step 5: the tone of this cycle from `ST` as the handler left it, and both timers decay (R61, R62). -/
def decayTimers (s : State) : State :=
  { s with tone := decide (s.st ≠ 0x00#8), dt := decayed s.dt, st := decayed s.st }

/-- The end of every cycle: step 5, and the model's count of draws goes on to the next (R6, R56). -/
def endCycle (s : State) : State := { decayTimers s with draws := s.draws + 1 }

/-- A cycle ends after its handler's next state; another outcome is handed on as it is. -/
def finishCycle (o : Host.Outcome State Fault Refusal) : Host.Outcome State Fault Refusal :=
  match o with
  | .next t => .next (endCycle t)
  | .fault r => .fault r
  | .refused r => .refused r

/-- Steps 3 to 5 for a word that is no instruction (R56, R108). -/
def unknownCycle (s : State) : State := endCycle (raise .unknownOpcode s.advancePc)

/-- The state with an instruction's two bytes where the next fetch reads them. -/
def State.placeWord (s : State) (op : Word) : State :=
  (s.memWrite s.pc.toNat (op.extractLsb' 8 8)).memWrite (s.pc.toNat + 1) (op.extractLsb' 0 8)

end Sys2Proof.Machine
end

