-- ==== Sys2Proof/Machine/Flags.lean ====
section
/-! DEFINITION. The flag values that instructions deliver in VF (spec/10_state.md R11, spec/43_alu.md R87) and the
order of the two writes (spec/40_cycle.md R60). -/

namespace Sys2Proof.Machine

/-- VF, `V[15]` (R11). -/
def regF : Reg := 15

/-- A flag as the byte 0x00 or 0x01 (R87 item 1). -/
def flagByte (b : Bool) : Byte := if b then 0x01#8 else 0x00#8

/-- The carry of an addition: the 9-bit sum is above 255 (R81). -/
def carryOut (a b : Byte) : Bool := decide (a.toNat + b.toNat > 255)

/-- Not-borrow of `a - b`: 0 if a < b, else 1 (R82, R84, R87 item 3). -/
def notBorrow (a b : Byte) : Bool := !decide (a.toNat < b.toNat)

/-- The bit a right shift by one drops, `vx[0]` (R83). -/
def droppedLow (vx : Byte) : Bool := vx.getLsbD 0

/-- The bit a left shift by one drops, `vx[7]` (R85). -/
def droppedHigh (vx : Byte) : Bool := vx.getLsbD 7

/-- `V[15] <- flag`, then `V[x] <- result`: with x = F the result is written last and stays (R60). -/
def State.flagThenResult (s : State) (flag : Bool) (x : Reg) (result : Byte) : State :=
  (s.setV regF (flagByte flag)).setV x result

end Sys2Proof.Machine
end

