-- ==== Sys2Proof/Machine/Alu.lean ====
section
/-! DEFINITION. Register loads, arithmetic, logic, shifts and the random byte (spec/43_alu.md). Operands are read from
the state before the first write (spec/40_cycle.md R60). -/

namespace Sys2Proof.Machine

/-- `6XNN`: VX <- NN (R75). -/
def execLdImm (x : Reg) (nn : Byte) (s : State) : Host.Outcome State Fault Refusal := .next (s.setV x nn)

/-- `7XNN`: VX <- (VX + NN) mod 256, VF not written (R76). -/
def execAddImm (x : Reg) (nn : Byte) (s : State) : Host.Outcome State Fault Refusal :=
  .next (s.setV x (s.getV x + nn))

/-- `8XY0`: VX <- VY (R77). -/
def execLdReg (x y : Reg) (s : State) : Host.Outcome State Fault Refusal := .next (s.setV x (s.getV y))

/-- `8XY1`: VX <- VX OR VY, VF not written (R78). -/
def execOrReg (x y : Reg) (s : State) : Host.Outcome State Fault Refusal :=
  .next (s.setV x (s.getV x ||| s.getV y))

/-- `8XY2`: VX <- VX AND VY, VF not written (R79). -/
def execAndReg (x y : Reg) (s : State) : Host.Outcome State Fault Refusal :=
  .next (s.setV x (s.getV x &&& s.getV y))

/-- `8XY3`: VX <- VX XOR VY, VF not written (R80). -/
def execXorReg (x y : Reg) (s : State) : Host.Outcome State Fault Refusal :=
  .next (s.setV x (s.getV x ^^^ s.getV y))

/-- `8XY4`: VF <- carry, VX <- sum mod 256 (R81). -/
def execAddReg (x y : Reg) (s : State) : Host.Outcome State Fault Refusal :=
  .next (s.flagThenResult (carryOut (s.getV x) (s.getV y)) x (s.getV x + s.getV y))

/-- `8XY5`: VF <- not-borrow, VX <- (VX - VY) mod 256 (R82). -/
def execSubReg (x y : Reg) (s : State) : Host.Outcome State Fault Refusal :=
  .next (s.flagThenResult (notBorrow (s.getV x) (s.getV y)) x (s.getV x - s.getV y))

/-- `8XY6`: VF <- VX[0], VX <- VX >> 1, logical; Y is not used (R83). -/
def execShr (x _y : Reg) (s : State) : Host.Outcome State Fault Refusal :=
  .next (s.flagThenResult (droppedLow (s.getV x)) x (s.getV x >>> 1))

/-- `8XY7`: VF <- not-borrow of VY - VX, VX <- (VY - VX) mod 256 (R84). -/
def execSubn (x y : Reg) (s : State) : Host.Outcome State Fault Refusal :=
  .next (s.flagThenResult (notBorrow (s.getV y) (s.getV x)) x (s.getV y - s.getV x))

/-- `8XYE`: VF <- VX[7], VX <- (VX << 1) mod 256; Y is not used (R85). -/
def execShl (x _y : Reg) (s : State) : Host.Outcome State Fault Refusal :=
  .next (s.flagThenResult (droppedHigh (s.getV x)) x (s.getV x <<< 1))

/-- `CXNN` with the draw given: VX <- rnd AND NN (R86). -/
def State.maskedDraw (s : State) (rnd : Byte) (x : Reg) (nn : Byte) : State := s.setV x (rnd &&& nn)

/-- `CXNN`: the draw is the free value of this cycle (R6, R86; log entry 2). -/
def execRnd (x : Reg) (nn : Byte) (s : State) : Host.Outcome State Fault Refusal :=
  .next (s.maskedDraw (Config.rnd s.draws) x nn)

end Sys2Proof.Machine
end

