-- ==== Sys2Proof/Machine/Operands.lean ====
section
/-! DEFINITION. How the handlers form their operands: the data address (spec/44_index_mem.md R94), key numbers
(spec/46_keys.md R100), decimal digits (R91), glyph addresses (R90), pixel coordinates and sprite bits
(spec/45_draw.md R95, R96), zero extension (spec/30_encoding.md R46). -/

namespace Sys2Proof.Machine

/-- `zext_16(NNN)` (R46) -/
def zext16 (nnn : Addr12) : Word := nnn.setWidth 16

/-- The one data addressing mode: `EA = (I + k) mod 4096` (R94). -/
def State.effAddr (s : State) (k : Nat) : Nat := (s.i.toNat + k) % 4096

/-- The key a register names: its low four bits (R100). -/
def keyIndex (vx : Byte) : Fin 16 := (vx.extractLsb' 0 4).toFin

/-- The hundreds digit, `vx div 100` (R91). -/
def bcdHundreds (vx : Byte) : Byte := BitVec.ofNat 8 (vx.toNat / 100)

/-- The tens digit, `(vx div 10) mod 10` (R91). -/
def bcdTens (vx : Byte) : Byte := BitVec.ofNat 8 (vx.toNat / 10 % 10)

/-- The ones digit, `vx mod 10` (R91). -/
def bcdOnes (vx : Byte) : Byte := BitVec.ofNat 8 (vx.toNat % 10)

/-- The address of a font glyph, `zext_16(vx) * 5`, the whole byte multiplied (R90). -/
def glyphAddr (vx : Byte) : Word := BitVec.ofNat 16 (vx.toNat * 5)

/-- Column of a pixel, modulo 64 (R95). -/
def columnOf (n : Nat) : Fin 64 := Fin.ofNat 64 n

/-- Row of a pixel, modulo 32 (R95). -/
def lineOf (n : Nat) : Fin 32 := Fin.ofNat 32 n

/-- Column `col` of a sprite row, bit 7 leftmost: `b[7 - col]` (R96). -/
def spriteBit (b : Byte) (col : Nat) : Bool := b.getLsbD (7 - col)

/-- The numbers of the registers that `FX55` and `FX65` move: `0..X`, both ends included (R8, R92). -/
def regsUpTo (x : Reg) : List Nat := List.range (x.val + 1)

/-- The register with number `k`, for `k` in `0..15`. -/
def regNumber (k : Nat) : Reg := Fin.ofNat 16 k

end Sys2Proof.Machine
end

