-- ==== Sys2Proof/Machine/Draw.lean ====
section
/-! DEFINITION. The display (spec/45_draw.md): `00E0`, and the draw and collision engine of `DXYN`. The loops are the
spec's own (R98): rows from the top, columns from the left, a framebuffer and a collision bit carried along. -/

namespace Sys2Proof.Machine

/-- `00E0`: every cell off, VF not written (R97). -/
def execCls (s : State) : Host.Outcome State Fault Refusal := .next { s with fb := filled false }

/-- One pixel of a draw: XOR the sprite bit into the target cell, note a cell that goes from on to off (R98). -/
def plot (fb : Framebuffer) (hit : Bool) (x : Fin 64) (y : Fin 32) (bit : Bool) : Framebuffer × Bool :=
  (setPixel fb x y (pixel fb x y ^^ bit), hit || (pixel fb x y && !(pixel fb x y ^^ bit)))

/-- The columns in a list of one sprite row `b`, its left end at column `vx` of line `line` (R96, R98). -/
def drawCols (vx line : Nat) (b : Byte) (cols : List Nat) (d : Framebuffer × Bool) : Framebuffer × Bool :=
  cols.foldl (fun d col => plot d.1 d.2 (columnOf (vx + col)) (lineOf line) (spriteBit b col)) d

/-- The rows in a list of the sprite at I, its top left at (vx, vy); row r is the byte at I + r (R96, R98). -/
def drawRows (s : State) (vx vy : Nat) (rows : List Nat) (d : Framebuffer × Bool) : Framebuffer × Bool :=
  rows.foldl (fun d row => drawCols vx (vy + row) (s.memRead (s.effAddr row)) (List.range 8) d) d

/-- `DXYN`: draw N rows, then VF <- collision; the coordinates are read before VF is written (R98, R60). -/
def execDrw (x y : Reg) (n : Fin 16) (s : State) : Host.Outcome State Fault Refusal :=
  let d := drawRows s (s.getV x).toNat (s.getV y).toNat (List.range n.val) (s.fb, false)
  .next ({ s with fb := d.1 }.setV regF (flagByte d.2))

end Sys2Proof.Machine
end

