-- ==== Sys2Proof/Machine/Flow.lean ====
section
/-! DEFINITION. Control transfer (spec/41_flow.md): `0NNN`, `00EE`, `1NNN`, `2NNN`, `BNNN`. In every meaning `PC` is
the advanced value (spec/40_cycle.md R58). -/

namespace Sys2Proof.Machine

/-- `0NNN`: no operation, NNN ignored (R64). -/
def execSys (_nnn : Addr12) (s : State) : Host.Outcome State Fault Refusal := .next s

/-- The pop of `00EE`: StackUnderflow with an empty stack, else SP <- SP - 1 and PC <- STACK[SP]; the slot keeps its
value (R65, R14). -/
def State.pop (s : State) : State :=
  if h : s.sp.val = 0 then raise .stackUnderflow s
  else
    { s with
      sp := ⟨s.sp.val - 1, by omega⟩
      pc := s.getStack ⟨s.sp.val - 1, by omega⟩ }

/-- The push of `2NNN`: StackOverflow with a full stack, else STACK[SP] <- PC, SP <- SP + 1, PC <- target (R67). -/
def State.pushAndJump (s : State) (target : Word) : State :=
  if h : s.sp.val = 16 then raise .stackOverflow s
  else
    { s with
      stack := s.stack.set s.sp.val s.pc (by omega)
      sp := ⟨s.sp.val + 1, by omega⟩
      pc := target }

/-- `00EE` (R65) -/
def execRet (s : State) : Host.Outcome State Fault Refusal := .next s.pop

/-- `1NNN`: PC <- NNN (R66). -/
def execJp (nnn : Addr12) (s : State) : Host.Outcome State Fault Refusal := .next { s with pc := zext16 nnn }

/-- `2NNN` (R67) -/
def execCall (nnn : Addr12) (s : State) : Host.Outcome State Fault Refusal := .next (s.pushAndJump (zext16 nnn))

/-- `BNNN`: PC <- (V0 + NNN) mod 4096 (R68). -/
def execJpV0 (nnn : Addr12) (s : State) : Host.Outcome State Fault Refusal :=
  .next (s.setPc ((s.getV 0).toNat + nnn.toNat))

end Sys2Proof.Machine
end

