-- ==== Sys2Proof/Machine/IndexMem.lean ====
section
/-! DEFINITION. The index register and memory transfer (spec/44_index_mem.md): `ANNN`, `FX1E`, `FX29`, `FX33`, `FX55`,
`FX65`. -/

namespace Sys2Proof.Machine

/-- `ANNN`: I <- NNN (R88). -/
def execLdI (nnn : Addr12) (s : State) : Host.Outcome State Fault Refusal := .next { s with i := zext16 nnn }

/-- `FX1E`: I <- (I + VX) mod 4096, no overflow flag (R89). -/
def execAddI (x : Reg) (s : State) : Host.Outcome State Fault Refusal :=
  .next (s.setI (s.i.toNat + (s.getV x).toNat))

/-- `FX29`: I <- VX * 5 (R90). -/
def execLdF (x : Reg) (s : State) : Host.Outcome State Fault Refusal := .next { s with i := glyphAddr (s.getV x) }

/-- The three stores of `FX33`, hundreds first (R91). -/
def State.storeBcd (s : State) (vx : Byte) : State :=
  ((s.memWrite (s.effAddr 0) (bcdHundreds vx)).memWrite (s.effAddr 1) (bcdTens vx)).memWrite (s.effAddr 2)
    (bcdOnes vx)

/-- `FX33` (R91) -/
def execBcd (x : Reg) (s : State) : Host.Outcome State Fault Refusal := .next (s.storeBcd (s.getV x))

/-- The stores of `FX55` for the register numbers in a list, the registers read from `latched` (R92). -/
def storeList (latched : State) (ks : List Nat) (s : State) : State :=
  ks.foldl (fun t k => t.memWrite (latched.effAddr k) (latched.getV (regNumber k))) s

/-- `FX55`: V0..VX to memory at I, I unchanged (R92). -/
def execStoreRegs (x : Reg) (s : State) : Host.Outcome State Fault Refusal := .next (storeList s (regsUpTo x) s)

/-- The loads of `FX65` for the register numbers in a list, the bytes read from `source` (R93). -/
def loadList (source : State) (ks : List Nat) (s : State) : State :=
  ks.foldl (fun t k => t.setV (regNumber k) (source.memRead (source.effAddr k))) s

/-- `FX65`: V0..VX from memory at I, I unchanged (R93). -/
def execLoadRegs (x : Reg) (s : State) : Host.Outcome State Fault Refusal := .next (loadList s (regsUpTo x) s)

end Sys2Proof.Machine
end

