-- ==== Sys2Proof/Machine/Keys.lean ====
section
/-! DEFINITION. The key instructions (spec/46_keys.md): `EX9E`, `EXA1`, and the blocking key-wait `FX0A`. -/

namespace Sys2Proof.Machine

/-- Whether the key that VX names is down (R100). -/
def State.keyDown (s : State) (x : Reg) : Bool := s.getKey (keyIndex (s.getV x))

/-- `EX9E`: skip if the key is pressed (R101). -/
def execSkp (x : Reg) (s : State) : Host.Outcome State Fault Refusal := .next (s.skipIf (s.keyDown x))

/-- `EXA1`: skip if the key is not pressed (R102). -/
def execSknp (x : Reg) (s : State) : Host.Outcome State Fault Refusal := .next (s.skipIf (!s.keyDown x))

/-- `FX0A`: undo the advance, and if the key is down write VX back and advance again (R103). -/
def execWaitKey (x : Reg) (s : State) : Host.Outcome State Fault Refusal :=
  .next (if s.keyDown x then (s.rollBackPc.setV x (s.getV x)).advancePc else s.rollBackPc)

end Sys2Proof.Machine
end

