-- ==== Sys2Proof/Machine/Skip.lean ====
section
/-! DEFINITION. The register-comparison skips (spec/42_skip.md): `3XNN`, `4XNN`, `5XY0`, `9XY0`. -/

namespace Sys2Proof.Machine

/-- `3XNN`: skip if VX = NN (R71). -/
def execSeImm (x : Reg) (nn : Byte) (s : State) : Host.Outcome State Fault Refusal :=
  .next (s.skipIf (s.getV x == nn))

/-- `4XNN`: skip if VX differs from NN (R72). -/
def execSneImm (x : Reg) (nn : Byte) (s : State) : Host.Outcome State Fault Refusal :=
  .next (s.skipIf (s.getV x != nn))

/-- `5XY0`: skip if VX = VY (R73). -/
def execSeReg (x y : Reg) (s : State) : Host.Outcome State Fault Refusal :=
  .next (s.skipIf (s.getV x == s.getV y))

/-- `9XY0`: skip if VX differs from VY (R74). -/
def execSneReg (x y : Reg) (s : State) : Host.Outcome State Fault Refusal :=
  .next (s.skipIf (s.getV x != s.getV y))

end Sys2Proof.Machine
end

