-- ==== Sys2Proof/Machine/Timers.lean ====
section
/-! DEFINITION. Timer access (spec/47_timers.md): `FX07`, `FX15`, `FX18`. The decay of the same cycle follows the
handler (spec/40_cycle.md R61). -/

namespace Sys2Proof.Machine

/-- `FX07`: VX <- DT (R104). -/
def execLdVxDt (x : Reg) (s : State) : Host.Outcome State Fault Refusal := .next (s.setV x s.dt)

/-- `FX15`: DT <- VX (R105). -/
def execLdDtVx (x : Reg) (s : State) : Host.Outcome State Fault Refusal := .next { s with dt := s.getV x }

/-- `FX18`: ST <- VX (R106). -/
def execLdStVx (x : Reg) (s : State) : Host.Outcome State Fault Refusal := .next { s with st := s.getV x }

end Sys2Proof.Machine
end

