-- ==== Sys2Proof/Machine/HostOps.lean ====
section
/-! DEFINITION. What the host may do to the core between cycles (spec/60_exceptions.md R120 to R123, R127;
spec/70_reset_and_hazards.md R128 to R130). None of these is part of a step. -/

namespace Sys2Proof.Machine

/-- `reset()` (R128): every field to its reset value, the font of the parameter loaded again. The model's count of
draws goes on, so a draw is never handed out twice (log entry 3). -/
def hostReset (s : State) : State := State.powerOn s.mem.font s.draws

/-- `bytes` stored one after the other from address `base` (R129). -/
def loadBytes (base : Nat) (bytes : List Byte) (s : State) : State :=
  match bytes with
  | [] => s
  | b :: rest => loadBytes (base + 1) rest (s.memWrite base b)

/-- `load_program(bytes)` (R129): refused with the state unchanged above 3584 bytes (R130), else reset and copied to
0x200. -/
def loadProgram (bytes : List Byte) (s : State) : LoadResult × State :=
  if bytes.length > 3584 then (.programTooLarge, s) else (.ok, loadBytes 0x200 bytes (hostReset s))

/-- `set_key(k, pressed)` (R120) -/
def setKey (k : Fin 16) (pressed : Bool) (s : State) : State := { s with keys := s.keys.set k pressed }

/-- `display()`: the grid (R121). -/
def display (s : State) : Framebuffer := s.fb

/-- `display()` in the row-major order of R121: the cell (x, y) at index y * 64 + x. -/
def displayCell (s : State) (k : Fin 2048) : Bool :=
  pixel (display s) ⟨k.val % 64, by omega⟩ ⟨k.val / 64, by omega⟩

/-- `sound_active()`: the tone latch (R122). -/
def soundActive (s : State) : Bool := s.tone

/-- `delay_value()`: DT (R122). -/
def delayValue (s : State) : Byte := s.dt

/-- `diag()`: the three flags (R123). -/
def diagBits (s : State) : BitVec 3 := s.diag

end Sys2Proof.Machine
end

