-- ==== Sys2Proof/Machine/Step.lean ====
section
/-! DEFINITION. One step is one `cycle` (spec/40_cycle.md R55, R56): fetch, advance, handler or UnknownOpcode, timer
decay. -/

namespace Sys2Proof.Machine

/-- `cycle(rnd)` (R56). The draw is the free value of this cycle's number (log entry 2). -/
def step (s : State) : Host.Outcome State Fault Refusal :=
  match decodeWord s.fetchWord with
  | .ok i => finishCycle (exec i s.advancePc)
  | .error _ => .next (unknownCycle s)

/-- The state with an instruction of the opcode table stored at PC and PC + 1, its bits numbered as the table numbers
them (log entry 10). -/
def State.withFetchWord (s : State) (nbits w : Nat) : State := s.placeWord (BitVec.ofNat 16 (w % 2 ^ nbits))

end Sys2Proof.Machine
end

