-- ==== Sys2Proof/Safety.lean ====
section
/-! DEFINITION. The terms claims use: the state invariant (spec/10_state.md R25), what an instruction may write (the
access matrix, R27), frames between two states, and what it means that an instruction completes. -/

namespace Sys2Proof.Safety

open Sys2Proof.Machine

/-- The invariant of R25, with the canonical form of memory (log entry 7). SP <= 16 is in its type. -/
abbrev Inv (s : State) : Prop :=
  s.pc.toNat < 4096 ∧ s.i.toNat < 4096 ∧ s.sp.val ≤ 16 ∧ (∀ k : Fin 16, (s.getStack k).toNat < 4096) ∧ s.mem.wf = true

/-- No condition has been met since the last reset or load: how a claim says that a run went well (R22, R112). -/
abbrev ConditionFree (s : State) : Prop := s.diag = 0b000#3

/-- What a handler may write; every field left out is not written. `stack` stands for the slots and `sp` for the stack
pointer; `sovf` and `sunf` are the flags of DIAG a handler can set; `storedBytes` is the number of bytes stored from the
effective address on. -/
structure Footprint where
  regs : Reg → Bool := fun _ => false
  pc : Bool := false
  i : Bool := false
  stack : Bool := false
  sp : Bool := false
  dt : Bool := false
  st : Bool := false
  fb : Bool := false
  sovf : Bool := false
  sunf : Bool := false
  storedBytes : Nat := 0

/-- `t` differs from `s` only where `f` allows: the registers outside `f.regs`, each other piece of state, and every
byte of memory outside the stored ones. A handler never writes KEYS, TONE, DIAG.UNK, the parameter FONT or the number of
the draw, so no footprint allows them. -/
def Respects (f : Footprint) (s t : State) : Prop :=
  (∀ k : Reg, f.regs k = false → t.getV k = s.getV k) ∧
  (f.pc = false → t.pc = s.pc) ∧
  (f.i = false → t.i = s.i) ∧
  (f.stack = false → t.stack = s.stack) ∧
  (f.sp = false → t.sp = s.sp) ∧
  (f.dt = false → t.dt = s.dt) ∧
  (f.st = false → t.st = s.st) ∧
  (f.fb = false → t.fb = s.fb) ∧
  t.diag.getLsbD 0 = s.diag.getLsbD 0 ∧
  (f.sovf = false → t.diag.getLsbD 1 = s.diag.getLsbD 1) ∧
  (f.sunf = false → t.diag.getLsbD 2 = s.diag.getLsbD 2) ∧
  t.keys = s.keys ∧ t.tone = s.tone ∧ t.mem.font = s.mem.font ∧ t.draws = s.draws ∧
  (∀ a : Nat, (∀ k, k < f.storedBytes → a % 4096 ≠ s.effAddr k) → t.memRead a = s.memRead a)

/-- The instruction answers a next state that respects the footprint and meets `post`. -/
def Completes (i : Instr) (s : State) (f : Footprint) (post : State → Prop) : Prop :=
  ∃ t, exec i s = .next t ∧ Respects f s t ∧ post t

/-- The number `w` is a 16-bit word that the decoder reads as `i`. -/
def EncodedAs (w : Nat) (i : Instr) : Prop := w < 65536 ∧ decodeWord (BitVec.ofNat 16 w) = .ok i

/-- The footprint that writes the one register `x`. -/
def onlyReg (x : Reg) : Footprint := { regs := fun k => k == x }

/-- The footprint of the five flag instructions: VX and VF (R11). -/
def regAndFlag (x : Reg) : Footprint := { regs := fun k => k == x || k == regF }

/-- The access matrix of R27, columns of writes ("w" and "c w"), register by register and flag by flag. `PC` stands for what a handler
does beyond the advance by 2. -/
def accessMatrix (i : Instr) : Footprint :=
  match i with
  | .cls => { fb := true }
  | .ret => { pc := true, sp := true, sunf := true }
  | .sys _ => {}
  | .jp _ => { pc := true }
  | .call _ => { pc := true, stack := true, sp := true, sovf := true }
  | .seImm _ _ => { pc := true }
  | .sneImm _ _ => { pc := true }
  | .seReg _ _ => { pc := true }
  | .ldImm x _ => onlyReg x
  | .addImm x _ => onlyReg x
  | .ldReg x _ => onlyReg x
  | .orReg x _ => onlyReg x
  | .andReg x _ => onlyReg x
  | .xorReg x _ => onlyReg x
  | .addReg x _ => regAndFlag x
  | .subReg x _ => regAndFlag x
  | .shr x _ => regAndFlag x
  | .subn x _ => regAndFlag x
  | .shl x _ => regAndFlag x
  | .sneReg _ _ => { pc := true }
  | .ldI _ => { i := true }
  | .jpV0 _ => { pc := true }
  | .rnd x _ => onlyReg x
  | .drw _ _ _ => { regs := fun k => k == regF, fb := true }
  | .skp _ => { pc := true }
  | .sknp _ => { pc := true }
  | .ldVxDt x => onlyReg x
  | .waitKey _ => { pc := true }
  | .ldDtVx _ => { dt := true }
  | .ldStVx _ => { st := true }
  | .addI _ => { i := true }
  | .ldF _ => { i := true }
  | .bcd _ => { storedBytes := 3 }
  | .storeRegs x => { storedBytes := x.val + 1 }
  | .loadRegs x => { regs := fun k => decide (k.val ≤ x.val) }

/-- The instructions that read a key (R20). -/
def readsKeys (i : Instr) : Bool :=
  match i with
  | .skp _ | .sknp _ | .waitKey _ => true
  | .rnd _ _ => false
  | .cls | .ret | .sys _ | .jp _ | .call _ | .jpV0 _ => false
  | .seImm _ _ | .sneImm _ _ | .seReg _ _ | .sneReg _ _ => false
  | .ldImm _ _ | .addImm _ _ | .ldReg _ _ | .orReg _ _ | .andReg _ _ | .xorReg _ _ => false
  | .addReg _ _ | .subReg _ _ | .shr _ _ | .subn _ _ | .shl _ _ => false
  | .ldI _ | .addI _ | .ldF _ | .bcd _ | .storeRegs _ | .loadRegs _ | .drw _ _ _ => false
  | .ldVxDt _ | .ldDtVx _ | .ldStVx _ => false

/-- The one instruction that reads the draw (R6). -/
def readsDraw (i : Instr) : Bool :=
  match i with
  | .rnd _ _ => true
  | .skp _ | .sknp _ | .waitKey _ => false
  | .cls | .ret | .sys _ | .jp _ | .call _ | .jpV0 _ => false
  | .seImm _ _ | .sneImm _ _ | .seReg _ _ | .sneReg _ _ => false
  | .ldImm _ _ | .addImm _ _ | .ldReg _ _ | .orReg _ _ | .andReg _ _ | .xorReg _ _ => false
  | .addReg _ _ | .subReg _ _ | .shr _ _ | .subn _ _ | .shl _ _ => false
  | .ldI _ | .addI _ | .ldF _ | .bcd _ | .storeRegs _ | .loadRegs _ | .drw _ _ _ => false
  | .ldVxDt _ | .ldDtVx _ | .ldStVx _ => false

/-- `s` after `n` cycles in which nothing happens but the decay of the timers (R61 to R63): the tone is the one the
last of them signalled. -/
def idled (n : Nat) (s : State) : State :=
  { s with
    dt := BitVec.ofNat 8 (s.dt.toNat - n)
    st := BitVec.ofNat 8 (s.st.toNat - n)
    tone := if n = 0 then s.tone else decide (n ≤ s.st.toNat)
    draws := s.draws + n }

end Sys2Proof.Safety
end

