-- ==== Sys2Proof/Certificates/Slice0/Obligations.lean ====
section
/-! DEFINITION. The statements for the provers, each from numbered rules of spec/. None rests on the draw `rnd`, on the
bytes of `FONT` or on the model's count of draws having a particular value. -/

open Sys2Proof Sys2Proof.Machine Sys2Proof.Safety

/-! ## Encoding -/

/-- One word of every family, written out from the formats of R47 and the map of R49 (some of them are the examples of the
instruction rules), decodes to its instruction. That the last two words are unknown is the spec's decision D4 (log
entry 8). -/
def Obligations.WordsDecodeAsTheSpecWritesThem : Prop :=
  decodeWord 0x00E0#16 = .ok .cls ∧ decodeWord 0x00EE#16 = .ok .ret ∧ decodeWord 0x0123#16 = .ok (.sys 0x123#12) ∧
  decodeWord 0x220C#16 = .ok (.call 0x20C#12) ∧ decodeWord 0x4105#16 = .ok (.sneImm 1 0x05#8) ∧
  decodeWord 0x9230#16 = .ok (.sneReg 2 3) ∧ decodeWord 0x600A#16 = .ok (.ldImm 0 0x0A#8) ∧
  decodeWord 0x81F5#16 = .ok (.subReg 1 15) ∧ decodeWord 0x812E#16 = .ok (.shl 1 2) ∧
  decodeWord 0xA300#16 = .ok (.ldI 0x300#12) ∧ decodeWord 0xF255#16 = .ok (.storeRegs 2) ∧
  decodeWord 0xD12F#16 = .ok (.drw 1 2 15) ∧ decodeWord 0xE1A1#16 = .ok (.sknp 1) ∧
  decodeWord 0xF10A#16 = .ok (.waitKey 1) ∧ decodeWord 0xF207#16 = .ok (.ldVxDt 2) ∧
  decodeWord 0x5121#16 = .error (.unknown5XYN 0x5121#16) ∧ decodeWord 0xF164#16 = .error (.unknownFXNN 0xF164#16)

/-- R44 to R49: for every well-formed instruction with every operand, the decoder reads its word, and its two bytes in
front of any others, as that instruction. -/
def Obligations.EncodedInstructionDecodesToItself : Prop :=
  ∀ (i : Instr) (rest : List Byte), i.wellFormed = true →
    decodeWord (encode i) = .ok i ∧ decode (encodeBytes i ++ rest) = .ok (i, rest)

/-- R45 to R49, R51: an instruction that the decoder reads is well-formed and its word is the one that was read, so no
bit of the word is dropped. -/
def Obligations.DecodedWordIsTheEncodingOfItsInstruction : Prop :=
  ∀ (op : Word) (i : Instr), decodeWord op = .ok i → i.wellFormed = true ∧ encode i = op

/-- R48, R49: for each of the 65536 words the decoder answers the instruction of the first row, in dispatch order, with
`op AND mask = match`, and rejects exactly the words that no row matches. That every fixed nibble of a row is matched
is the spec's decision D4 (log entry 8). -/
def Obligations.DecoderSelectsTheFirstMatchingRow : Prop :=
  ∀ op : Word, (∀ i, decodeWord op = .ok i → firstRow op = some (rowOf i)) ∧
    (∀ r, decodeWord op = .error r → firstRow op = none)

/-- R50: the words the decoder rejects are exactly the five sets, each under its own name. The list is the spec's decision
D4 (log entry 8). -/
def Obligations.UnknownWordsAreExactlyTheFiveSets : Prop :=
  ∀ op : Word,
    (decodeWord op = .error (.unknown5XYN op) ↔ op.toNat / 4096 = 0x5 ∧ op.toNat % 16 ≠ 0) ∧
    (decodeWord op = .error (.unknown8XYN op) ↔
      op.toNat / 4096 = 0x8 ∧ op.toNat % 16 ∈ [0x8, 0x9, 0xA, 0xB, 0xC, 0xD, 0xF]) ∧
    (decodeWord op = .error (.unknown9XYN op) ↔ op.toNat / 4096 = 0x9 ∧ op.toNat % 16 ≠ 0) ∧
    (decodeWord op = .error (.unknownEXNN op) ↔ op.toNat / 4096 = 0xE ∧ op.toNat % 256 ∉ [0x9E, 0xA1]) ∧
    (decodeWord op = .error (.unknownFXNN op) ↔
      op.toNat / 4096 = 0xF ∧
        op.toNat % 256 ∉ [0x07, 0x0A, 0x15, 0x18, 0x1E, 0x29, 0x33, 0x55, 0x65]) ∧
    (∀ r, decodeWord op = .error r →
      r ∈ [.unknown5XYN op, .unknown8XYN op, .unknown9XYN op, .unknownEXNN op, .unknownFXNN op])

/-! ## Invariants -/

/-- R25, R26: the state after reset meets the invariant, and so does a reset core with any font and any number of the next
draw. R25 is marked as derived; the bounds of PC and I rest on D2, the canonical form of memory is the model's (log
entries 7, 8). -/
def Obligations.ResetStateMeetsTheInvariant : Prop :=
  Inv State.reset ∧ ∀ (font : Font) (n : Nat), Inv (State.powerOn font n)

/-- R25: every cycle keeps the invariant, from every state that meets it. R25 is marked as derived; the bounds of PC and I
rest on D2, the canonical form of memory is the model's (log entries 7, 8). -/
def Obligations.EveryCycleKeepsTheInvariant : Prop :=
  ∀ s t : State, Inv s → step s = .next t → Inv t

/-- R25: every host operation keeps the invariant. R25 is marked as derived; the canonical form of memory is the model's
(log entries 7, 8). -/
def Obligations.HostOperationsKeepTheInvariant : Prop :=
  ∀ (s : State) (bytes : List Byte) (k : Fin 16) (pressed : Bool), Inv s →
    Inv (hostReset s) ∧ Inv (loadProgram bytes s).2 ∧ Inv (setKey k pressed s)

/-- R28, R29: two memories in canonical form over the same font that read the same at all 4096 addresses are the same
data. (The canonical form is the model's, log entry 7.) -/
def Obligations.CanonicalMemoriesWithEqualBytesAreEqual : Prop :=
  ∀ m m' : Memory, m.wf = true → m'.wf = true → m.font = m'.font →
    (∀ a, a < 4096 → m.byteAt a = m'.byteAt a) → m = m'

/-! ## The cycle -/

/-- R56: when the word at PC decodes to `i`, the step is `exec i` on the state with PC advanced, and after its next state
the end of the cycle; `advancePc` moves PC alone, by 2 modulo 4096, and `endCycle` decays the timers, sets the tone
and counts the draw (the count is the model's own, log entry 2). That step 5 follows every handler is the spec's
decision D25 (log entry 8). -/
def Obligations.StepRunsTheDecodedInstruction : Prop :=
  ∀ (s : State) (i : Instr), decodeWord s.fetchWord = .ok i →
    (∀ u, exec i s.advancePc = .next u → step s = .next (endCycle u)) ∧
    s.advancePc = { s with pc := BitVec.ofNat 16 ((s.pc.toNat + 2) % 4096) } ∧
    (∀ u, endCycle u = { u with
      tone := decide (u.st ≠ 0x00#8), dt := decayed u.dt, st := decayed u.st, draws := u.draws + 1 })

/-- R55, R112: the step answers a next state from every state, and every handler does. The spec's decision D1 (log entry
8). -/
def Obligations.CycleAlwaysAnswersANextState : Prop :=
  (∀ s : State, ∃ t, step s = .next t) ∧ ∀ (i : Instr) (s : State), ∃ t, exec i s = .next t

/-- R57: the fetched word is the bytes at PC and (PC + 1) mod 4096, the first the most significant, at any PC. -/
def Obligations.FetchIsBigEndianAtAnyPc : Prop :=
  ∀ s : State, s.fetchWord.toNat =
    (s.mem.byteAt (s.pc.toNat % 4096)).toNat * 256 + (s.mem.byteAt ((s.pc.toNat + 1) % 4096)).toNat

/-- R108: a cycle whose word matches no row sets every pixel and DIAG.UNK, leaves PC at old PC + 2, decays the timers and
changes nothing else. Pattern and flag are the spec's decisions D5 and D8, the decay D25, the tone latch D18 (log
entry 8). -/
def Obligations.UnknownOpcodeFillsTheDisplayAndGoesOn : Prop :=
  ∀ (s : State) (r : DecodeReject), decodeWord s.fetchWord = .error r →
    ∃ t, step s = .next t ∧ (∀ x y, pixel t.fb x y = true) ∧ t.diag = s.diag ||| 0b001#3 ∧
      t.pc.toNat = (s.pc.toNat + 2) % 4096 ∧
      t.dt.toNat = s.dt.toNat - 1 ∧ t.st.toNat = s.st.toNat - 1 ∧ t.tone = decide (0 < s.st.toNat) ∧
      (∀ k, t.getV k = s.getV k) ∧ t.i = s.i ∧ t.stack = s.stack ∧ t.sp = s.sp ∧ t.keys = s.keys ∧
      (∀ a, t.memRead a = s.memRead a) ∧ t.mem.font = s.mem.font

/-- R61, R62: in every cycle, with `u` the state its handler or the UnknownOpcode handling leaves, both timers end one
lower and never below zero, the tone is on exactly when ST was above zero in `u`, and all else the spec gives the
machine is as in `u`. The tone latch is the spec's decision D18, the decay in a condition cycle D25 (log entry 8). -/
def Obligations.TimersDecayOncePerCycle : Prop :=
  ∀ s u : State,
    (match decodeWord s.fetchWord with
      | .ok i => exec i s.advancePc = .next u
      | .error _ => u = raise .unknownOpcode s.advancePc) →
    ∃ t, step s = .next t ∧ t.dt.toNat = u.dt.toNat - 1 ∧ t.st.toNat = u.st.toNat - 1 ∧
      t.tone = decide (0 < u.st.toNat) ∧
      t = { u with dt := t.dt, st := t.st, tone := t.tone, draws := t.draws }

/-- R61, R105, R106: over a whole cycle DT is one less than it was, or than the VX that `FX15` loads; ST likewise with
`FX18`; and the tone is on exactly when the value before the decay was above zero. The tone latch is the spec's
decision D18, the decay in a condition cycle D25 (log entry 8). -/
def Obligations.TimersMoveOnlyByDecayOrTheirOwnLoad : Prop :=
  ∀ s t : State, step s = .next t →
    let dt := match decodeWord s.fetchWord with
      | .ok (.ldDtVx x) => (s.getV x).toNat
      | _ => s.dt.toNat
    let st := match decodeWord s.fetchWord with
      | .ok (.ldStVx x) => (s.getV x).toNat
      | _ => s.st.toNat
    t.dt.toNat = dt - 1 ∧ t.st.toNat = st - 1 ∧ t.tone = decide (0 < st)

/-- R22, R107: a flag of DIAG is set after a cycle exactly when it was set before or its condition arose in that cycle;
only `reset` and a successful `load_program` clear the flags. The register is the spec's decision D8 (log entry 8). -/
def Obligations.DiagFlagsAreStickyAndSetByTheirConditions : Prop :=
  (∀ s t : State, step s = .next t →
    (t.diag.getLsbD 0 = true ↔ s.diag.getLsbD 0 = true ∨ ∃ r, decodeWord s.fetchWord = .error r) ∧
    (t.diag.getLsbD 1 = true ↔
      s.diag.getLsbD 1 = true ∨ ((∃ nnn, decodeWord s.fetchWord = .ok (.call nnn)) ∧ s.sp.val = 16)) ∧
    (t.diag.getLsbD 2 = true ↔
      s.diag.getLsbD 2 = true ∨ (decodeWord s.fetchWord = .ok .ret ∧ s.sp.val = 0))) ∧
  (∀ (s : State) (bytes : List Byte) (k : Fin 16) (pressed : Bool),
    (hostReset s).diag = 0b000#3 ∧
    (bytes.length ≤ 3584 → (loadProgram bytes s).2.diag = 0b000#3) ∧
    (3584 < bytes.length → (loadProgram bytes s).2.diag = s.diag) ∧
    (setKey k pressed s).diag = s.diag)

/-- R58 with R65 to R68, R70 to R74, R101 to R103, R108: where PC is after a cycle, for every instruction and for the
unknown words. The wrap is the spec's decision D2, the three conditions D5 to D7, the key number D12, the wait D13
(log entry 8). -/
def Obligations.ProgramCounterAfterEveryKindOfCycle : Prop :=
  ∀ s t : State, step s = .next t →
    let next := (s.pc.toNat + 2) % 4096
    let skip := (s.pc.toNat + 4) % 4096
    match decodeWord s.fetchWord with
    | .error _ => t.pc.toNat = next
    | .ok .ret =>
      if h : s.sp.val = 0 then t.pc.toNat = next else t.pc = s.getStack ⟨s.sp.val - 1, by omega⟩
    | .ok (.jp nnn) => t.pc.toNat = nnn.toNat
    | .ok (.call nnn) => t.pc.toNat = if s.sp.val = 16 then next else nnn.toNat
    | .ok (.jpV0 nnn) => t.pc.toNat = ((s.getV 0).toNat + nnn.toNat) % 4096
    | .ok (.seImm x nn) => t.pc.toNat = if s.getV x = nn then skip else next
    | .ok (.sneImm x nn) => t.pc.toNat = if s.getV x ≠ nn then skip else next
    | .ok (.seReg x y) => t.pc.toNat = if s.getV x = s.getV y then skip else next
    | .ok (.sneReg x y) => t.pc.toNat = if s.getV x ≠ s.getV y then skip else next
    | .ok (.skp x) => t.pc.toNat = if s.getKey (keyIndex (s.getV x)) = true then skip else next
    | .ok (.sknp x) => t.pc.toNat = if s.getKey (keyIndex (s.getV x)) = false then skip else next
    | .ok (.waitKey x) =>
      t.pc.toNat = if s.getKey (keyIndex (s.getV x)) = true then next else s.pc.toNat % 4096
    | .ok _ => t.pc.toNat = next

/-! ## What may change and what may be read -/

/-- R27: every handler writes only what the access matrix allows its instruction: register by register, PC, I, the
stack slots (`2NNN` alone, D21), SP (`2NNN` and `00EE`), the timers, the framebuffer, DIAG flag by flag (`2NNN` SOVF,
`00EE` SUNF, UNK none), and byte by byte of memory; the stored bytes of `FX33` and `FX55` are those from the effective
address on (R94). The matrix holds the spec's decisions D6 to D8, D10, D13 and D21 (log entry 8); that the draw's
number is kept is the model's (log entry 2). -/
def Obligations.HandlersWriteOnlyWhatTheAccessMatrixAllows : Prop :=
  ∀ (i : Instr) (s t : State), exec i s = .next t → Respects (accessMatrix i) s t

/-- R12, R14, R15, R19, R20, R21, R27: over whole cycles memory changes only by `FX33` and `FX55`, the framebuffer
only by `00E0`, `DXYN` and unknown words, the stack slots only by `2NNN`, SP only by `2NNN` and `00EE`, I only by
`ANNN`, `FX1E` and `FX29`; the keys and the parameter FONT never change. That unknown words write the framebuffer is
the spec's decision D5, that a pop keeps its slot D21 (log entry 8). -/
def Obligations.EachStoreChangesOnlyByItsOwnInstructions : Prop :=
  ∀ s t : State, step s = .next t →
    t.keys = s.keys ∧ t.mem.font = s.mem.font ∧
    ((∀ x, decodeWord s.fetchWord ≠ .ok (.bcd x) ∧ decodeWord s.fetchWord ≠ .ok (.storeRegs x)) → t.mem = s.mem) ∧
    ((∀ x y n, decodeWord s.fetchWord ≠ .ok (.drw x y n)) → decodeWord s.fetchWord ≠ .ok .cls →
      (∀ r, decodeWord s.fetchWord ≠ .error r) → t.fb = s.fb) ∧
    ((∀ nnn, decodeWord s.fetchWord ≠ .ok (.call nnn)) → t.stack = s.stack) ∧
    ((∀ nnn, decodeWord s.fetchWord ≠ .ok (.call nnn)) → decodeWord s.fetchWord ≠ .ok .ret → t.sp = s.sp) ∧
    ((∀ nnn, decodeWord s.fetchWord ≠ .ok (.ldI nnn)) →
      (∀ x, decodeWord s.fetchWord ≠ .ok (.addI x) ∧ decodeWord s.fetchWord ≠ .ok (.ldF x)) → t.i = s.i)

/-- R20, R27: only `EX9E`, `EXA1` and `FX0A` read the keys: a cycle of any other word does the same whatever keys are
down. -/
def Obligations.KeysAreReadOnlyByTheKeyInstructions : Prop :=
  ∀ (s t : State) (keys : Vector Bool 16),
    (∀ i, decodeWord s.fetchWord = .ok i → readsKeys i = false) → step s = .next t →
    step { s with keys := keys } = .next { t with keys := keys }

/-- R6, R27: only `CXNN` reads the draw: a cycle of any other word does the same whichever draw it is given. The draw as a
free input is the spec's decision D11 (log entry 8), its number the model's (log entry 2). -/
def Obligations.DrawIsReadOnlyByTheRandomInstruction : Prop :=
  ∀ (s t : State) (n : Nat),
    (∀ i, decodeWord s.fetchWord = .ok i → readsDraw i = false) → step s = .next t →
    step { s with draws := n } = .next { t with draws := n + 1 }

/-- R18, R22: no instruction reads TONE or DIAG: cycles from states that differ only there end in states that differ only
in DIAG, since the tone is signalled anew. The two registers are the spec's decisions D8 and D18 (log entry 8). -/
def Obligations.NoInstructionReadsToneOrDiag : Prop :=
  ∀ (s t : State) (tone : Bool) (diag : BitVec 3), step s = .next t →
    ∃ t', step { s with tone := tone, diag := diag } = .next t' ∧ { t' with diag := t.diag } = t

/-! ## Control transfer -/

/-- R64, R51: every word below 0x1000 other than 0x00E0 and 0x00EE is `0NNN`, its handler changes nothing, and its
cycle is the advance of PC and the end of the cycle. -/
def Obligations.SysDoesNothing : Prop :=
  (∀ w, w < 4096 → w ≠ 0x0E0 → w ≠ 0x0EE → EncodedAs w (.sys (BitVec.ofNat 12 w))) ∧
  ∀ (nnn : Addr12) (s : State), Completes (.sys nnn) s {} (fun t => t = s) ∧
    (decodeWord s.fetchWord = .ok (.sys nnn) → step s = .next (endCycle s.advancePc))

/-- R66, R68: `1NNN` loads PC with NNN; `BNNN` with V0 + NNN modulo 4096. -/
def Obligations.JumpsLoadTheProgramCounter : Prop :=
  ∀ (nnn : Addr12) (s : State),
    EncodedAs (0x1000 + nnn.toNat) (.jp nnn) ∧
    Completes (.jp nnn) s { pc := true } (fun t => t.pc.toNat = nnn.toNat) ∧
    EncodedAs (0xB000 + nnn.toNat) (.jpV0 nnn) ∧
    Completes (.jpV0 nnn) s { pc := true } (fun t => t.pc.toNat = ((s.getV 0).toNat + nnn.toNat) % 4096)

/-- R67, R109: `2NNN` with room on the stack pushes PC (the advanced one, R58) and jumps; with a full stack it sets
DIAG.SOVF and does nothing else. What happens with a full stack is the spec's decisions D6 and D8 (log entry 8). -/
def Obligations.CallPushesAndJumpsOrReportsOverflow : Prop :=
  ∀ (nnn : Addr12) (s : State),
    EncodedAs (0x2000 + nnn.toNat) (.call nnn) ∧
    (s.sp.val < 16 → Completes (.call nnn) s { pc := true, stack := true, sp := true } (fun t =>
      t.sp.val = s.sp.val + 1 ∧ t.pc.toNat = nnn.toNat ∧
      ∀ k : Fin 16, t.getStack k = if k.val = s.sp.val then s.pc else s.getStack k)) ∧
    (s.sp.val = 16 → Completes (.call nnn) s { sovf := true } (fun t => t.diag = s.diag ||| 0b010#3))

/-- R65, R110, R14: `00EE` with a call pending pops into PC and leaves the slot as it was; with an empty stack it sets
DIAG.SUNF and does nothing else. What happens with an empty stack is the spec's decisions D7 and D8, that the slot is
kept D21 (log entry 8). -/
def Obligations.ReturnPopsOrReportsUnderflow : Prop :=
  ∀ s : State,
    EncodedAs 0x00EE .ret ∧
    (0 < s.sp.val → Completes .ret s { pc := true, sp := true } (fun t =>
      t.sp.val + 1 = s.sp.val ∧ (∀ k : Fin 16, k.val = t.sp.val → t.pc = s.getStack k) ∧ t.stack = s.stack)) ∧
    (s.sp.val = 0 → Completes .ret s { sunf := true } (fun t => t.diag = s.diag ||| 0b100#3))

/-- R65, R67: a cycle of `2NNN` with room on the stack and then a cycle of `00EE` come back to the instruction after the
call, with the stack pointer as before. -/
def Obligations.CallThenReturnComesBack : Prop :=
  ∀ (s t : State) (nnn : Addr12), decodeWord s.fetchWord = .ok (.call nnn) → s.sp.val < 16 → step s = .next t →
    decodeWord t.fetchWord = .ok .ret →
    ∃ u, step t = .next u ∧ u.pc.toNat = (s.pc.toNat + 2) % 4096 ∧ u.sp = s.sp ∧
      ∀ k : Fin 16, k.val ≠ s.sp.val → u.getStack k = s.getStack k

/-! ## Skips -/

/-- R71 to R74: the four register skips move the advanced PC by 2 more exactly when their comparison holds, and change
nothing else. -/
def Obligations.RegisterSkipsAddTwoWhenTheComparisonHolds : Prop :=
  ∀ (x y : Reg) (nn : Byte) (s : State),
    let skipped := (s.pc.toNat + 2) % 4096
    EncodedAs (0x3000 + x.val * 256 + nn.toNat) (.seImm x nn) ∧
    Completes (.seImm x nn) s { pc := true } (fun t =>
      t.pc.toNat = if s.getV x = nn then skipped else s.pc.toNat) ∧
    EncodedAs (0x4000 + x.val * 256 + nn.toNat) (.sneImm x nn) ∧
    Completes (.sneImm x nn) s { pc := true } (fun t =>
      t.pc.toNat = if s.getV x = nn then s.pc.toNat else skipped) ∧
    EncodedAs (0x5000 + x.val * 256 + y.val * 16) (.seReg x y) ∧
    Completes (.seReg x y) s { pc := true } (fun t =>
      t.pc.toNat = if s.getV x = s.getV y then skipped else s.pc.toNat) ∧
    EncodedAs (0x9000 + x.val * 256 + y.val * 16) (.sneReg x y) ∧
    Completes (.sneReg x y) s { pc := true } (fun t =>
      t.pc.toNat = if s.getV x = s.getV y then s.pc.toNat else skipped)

/-! ## Loads, arithmetic, logic, shifts, random -/

/-- R75, R76: `6XNN` loads NN; `7XNN` adds NN modulo 256 and writes no flag. -/
def Obligations.ImmediateLoadAndAdd : Prop :=
  ∀ (x : Reg) (nn : Byte) (s : State),
    EncodedAs (0x6000 + x.val * 256 + nn.toNat) (.ldImm x nn) ∧
    Completes (.ldImm x nn) s (onlyReg x) (fun t => t.getV x = nn) ∧
    EncodedAs (0x7000 + x.val * 256 + nn.toNat) (.addImm x nn) ∧
    Completes (.addImm x nn) s (onlyReg x) (fun t =>
      (t.getV x).toNat = ((s.getV x).toNat + nn.toNat) % 256)

/-- R77 to R80: copy, OR, AND and XOR write VX, bit by bit, and no flag. That the logic operations write no flag is the
spec's decision D10 (log entry 8). -/
def Obligations.CopyAndLogicWriteNoFlag : Prop :=
  ∀ (x y : Reg) (s : State),
    EncodedAs (0x8000 + x.val * 256 + y.val * 16) (.ldReg x y) ∧
    Completes (.ldReg x y) s (onlyReg x) (fun t => t.getV x = s.getV y) ∧
    EncodedAs (0x8001 + x.val * 256 + y.val * 16) (.orReg x y) ∧
    Completes (.orReg x y) s (onlyReg x) (fun t =>
      ∀ j < 8, (t.getV x).getLsbD j = ((s.getV x).getLsbD j || (s.getV y).getLsbD j)) ∧
    EncodedAs (0x8002 + x.val * 256 + y.val * 16) (.andReg x y) ∧
    Completes (.andReg x y) s (onlyReg x) (fun t =>
      ∀ j < 8, (t.getV x).getLsbD j = ((s.getV x).getLsbD j && (s.getV y).getLsbD j)) ∧
    EncodedAs (0x8003 + x.val * 256 + y.val * 16) (.xorReg x y) ∧
    Completes (.xorReg x y) s (onlyReg x) (fun t =>
      ∀ j < 8, (t.getV x).getLsbD j = ((s.getV x).getLsbD j ^^ (s.getV y).getLsbD j))

/-- R81: `8XY4` writes the sum modulo 256, and VF with the carry unless VX is VF, where the sum stays. What VF holds when
VX is VF is the spec's decision D9 (log entry 8). -/
def Obligations.AddWritesSumAndCarry : Prop :=
  ∀ (x y : Reg) (s : State),
    EncodedAs (0x8004 + x.val * 256 + y.val * 16) (.addReg x y) ∧
    Completes (.addReg x y) s (regAndFlag x) (fun t =>
      (t.getV x).toNat = ((s.getV x).toNat + (s.getV y).toNat) % 256 ∧
      (x ≠ 15 → t.getV 15 = if 255 < (s.getV x).toNat + (s.getV y).toNat then 0x01#8 else 0x00#8))

/-- R82, R84: `8XY5` writes VX - VY and `8XY7` VY - VX modulo 256, and VF with the not-borrow (1 on equality) unless VX is
VF, where the difference stays. What VF holds when VX is VF is the spec's decision D9 (log entry 8). -/
def Obligations.SubtractWritesDifferenceAndNotBorrow : Prop :=
  ∀ (x y : Reg) (s : State),
    EncodedAs (0x8005 + x.val * 256 + y.val * 16) (.subReg x y) ∧
    Completes (.subReg x y) s (regAndFlag x) (fun t =>
      (t.getV x).toNat = (256 + (s.getV x).toNat - (s.getV y).toNat) % 256 ∧
      (x ≠ 15 → t.getV 15 = if (s.getV x).toNat < (s.getV y).toNat then 0x00#8 else 0x01#8)) ∧
    EncodedAs (0x8007 + x.val * 256 + y.val * 16) (.subn x y) ∧
    Completes (.subn x y) s (regAndFlag x) (fun t =>
      (t.getV x).toNat = (256 + (s.getV y).toNat - (s.getV x).toNat) % 256 ∧
      (x ≠ 15 → t.getV 15 = if (s.getV y).toNat < (s.getV x).toNat then 0x00#8 else 0x01#8))

/-- R83, R85: `8XY6` and `8XYE` shift VX by one with a zero coming in, for any Y, and VF takes the bit shifted out unless
VX is VF, where the shifted value stays. That Y is ignored is the spec's decision D10, what VF holds when VX is VF D9
(log entry 8). -/
def Obligations.ShiftsMoveOneBitIntoVf : Prop :=
  ∀ (x y : Reg) (s : State),
    EncodedAs (0x8006 + x.val * 256 + y.val * 16) (.shr x y) ∧
    Completes (.shr x y) s (regAndFlag x) (fun t =>
      (t.getV x).toNat = (s.getV x).toNat / 2 ∧ (x ≠ 15 → (t.getV 15).toNat = (s.getV x).toNat % 2)) ∧
    EncodedAs (0x800E + x.val * 256 + y.val * 16) (.shl x y) ∧
    Completes (.shl x y) s (regAndFlag x) (fun t =>
      (t.getV x).toNat = (s.getV x).toNat * 2 % 256 ∧ (x ≠ 15 → (t.getV 15).toNat = (s.getV x).toNat / 128))

/-- R87: with VX other than VF, flag and result together hold the exact arithmetic result, nothing lost. -/
def Obligations.FlagAndResultTogetherAreExact : Prop :=
  ∀ (x y : Reg) (s t : State), x ≠ 15 →
    (exec (.addReg x y) s = .next t →
      256 * (t.getV 15).toNat + (t.getV x).toNat = (s.getV x).toNat + (s.getV y).toNat) ∧
    (exec (.subReg x y) s = .next t →
      (t.getV x).toNat + 256 * (t.getV 15).toNat + (s.getV y).toNat = (s.getV x).toNat + 256) ∧
    (exec (.subn x y) s = .next t →
      (t.getV x).toNat + 256 * (t.getV 15).toNat + (s.getV x).toNat = (s.getV y).toNat + 256) ∧
    (exec (.shr x y) s = .next t → 2 * (t.getV x).toNat + (t.getV 15).toNat = (s.getV x).toNat) ∧
    (exec (.shl x y) s = .next t → 256 * (t.getV 15).toNat + (t.getV x).toNat = 2 * (s.getV x).toNat)

/-- R86: `CXNN` writes the draw of this cycle masked with NN, whatever byte the draw is; no bit outside NN is ever set.
The draw as a free input is the spec's decision D11 (log entry 8), its number the model's (log entry 2). -/
def Obligations.RandomByteIsMasked : Prop :=
  ∀ (x : Reg) (nn : Byte) (s : State),
    EncodedAs (0xC000 + x.val * 256 + nn.toNat) (.rnd x nn) ∧
    Completes (.rnd x nn) s (onlyReg x) (fun t =>
      t.getV x = Config.rnd s.draws &&& nn ∧ t.getV x &&& ~~~nn = 0x00#8) ∧
    (∀ draw : Byte, (s.maskedDraw draw x nn).getV x = draw &&& nn)

/-! ## Index register and memory transfer -/

/-- R88, R89, R90: `ANNN` loads I; `FX1E` adds VX modulo 4096 and writes no flag; `FX29` loads VX * 5, the whole byte
multiplied. The reduction of `FX1E` is the spec's decision D2, the whole byte of `FX29` D29 (log entry 8). -/
def Obligations.IndexRegisterWrites : Prop :=
  ∀ (nnn : Addr12) (x : Reg) (s : State),
    EncodedAs (0xA000 + nnn.toNat) (.ldI nnn) ∧
    Completes (.ldI nnn) s { i := true } (fun t => t.i.toNat = nnn.toNat) ∧
    EncodedAs (0xF01E + x.val * 256) (.addI x) ∧
    Completes (.addI x) s { i := true } (fun t => t.i.toNat = (s.i.toNat + (s.getV x).toNat) % 4096) ∧
    EncodedAs (0xF029 + x.val * 256) (.ldF x) ∧
    Completes (.ldF x) s { i := true } (fun t => t.i.toNat = (s.getV x).toNat * 5)

/-- R91: `FX33` stores the three decimal digits of VX at I, I + 1, I + 2 modulo 4096, hundreds first; I and every
other byte keep their value; the digits are digits and make up VX. The addresses it stores to are (I + k) mod 4096. -/
def Obligations.BcdStoresThreeDecimalDigits : Prop :=
  ∀ (x : Reg) (s : State),
    (∀ k, k ≤ 2 → s.effAddr k = (s.i.toNat + k) % 4096) ∧
    EncodedAs (0xF033 + x.val * 256) (.bcd x) ∧
    Completes (.bcd x) s { storedBytes := 3 } (fun t =>
      let h := (t.memRead (s.effAddr 0)).toNat
      let d := (t.memRead (s.effAddr 1)).toNat
      let o := (t.memRead (s.effAddr 2)).toNat
      h = (s.getV x).toNat / 100 ∧ d = (s.getV x).toNat / 10 % 10 ∧ o = (s.getV x).toNat % 10 ∧
      h ≤ 2 ∧ d ≤ 9 ∧ o ≤ 9 ∧ 100 * h + 10 * d + o = (s.getV x).toNat)

/-- R92: `FX55` stores V0..VX, both included, at I, I + 1, ... modulo 4096; I and every other byte keep their value.
The addresses it stores to are (I + k) mod 4096, for k up to 15. -/
def Obligations.StoreRegistersFromI : Prop :=
  ∀ (x : Reg) (s : State),
    (∀ k, k ≤ 15 → s.effAddr k = (s.i.toNat + k) % 4096) ∧
    EncodedAs (0xF055 + x.val * 256) (.storeRegs x) ∧
    Completes (.storeRegs x) s { storedBytes := x.val + 1 } (fun t =>
      ∀ k : Reg, k.val ≤ x.val → t.memRead (s.effAddr k.val) = s.getV k)

/-- R93: `FX65` loads V0..VX, both included, from I, I + 1, ... modulo 4096; the other registers, I and memory keep
their value. The addresses it loads from are (I + k) mod 4096, for k up to 15. -/
def Obligations.LoadRegistersFromI : Prop :=
  ∀ (x : Reg) (s : State),
    (∀ k, k ≤ 15 → s.effAddr k = (s.i.toNat + k) % 4096) ∧
    EncodedAs (0xF065 + x.val * 256) (.loadRegs x) ∧
    Completes (.loadRegs x) s { regs := fun k => decide (k.val ≤ x.val) } (fun t =>
      ∀ k : Reg, k.val ≤ x.val → t.getV k = s.memRead (s.effAddr k.val))

/-- R92, R93: `FX65` after `FX55` with the same X and I restores V0..VX, whatever the registers held in between. -/
def Obligations.StoreThenLoadRestoresTheRegisters : Prop :=
  ∀ (x : Reg) (s t u : State) (v : Vector Byte 16), exec (.storeRegs x) s = .next t →
    exec (.loadRegs x) { t with v := v } = .next u →
    ∀ k : Reg, u.getV k = if k.val ≤ x.val then s.getV k else v[k]

/-- R41: bytes that `FX55` stores at the address of the next instruction are what the next cycle fetches. The spec's
decision D26 (log entry 8). -/
def Obligations.StoredBytesAreFetchedByTheNextCycle : Prop :=
  ∀ (s t : State) (x k k' : Reg), decodeWord s.fetchWord = .ok (.storeRegs x) → step s = .next t →
    k'.val = k.val + 1 → k'.val ≤ x.val → (s.pc.toNat + 2) % 4096 = s.effAddr k.val →
    t.fetchWord = wordOfBytes (s.getV k) (s.getV k')

/-! ## Display -/

/-- R97: `00E0` turns every pixel off and changes nothing else. -/
def Obligations.ClearScreenTurnsEveryPixelOff : Prop :=
  ∀ s : State, EncodedAs 0x00E0 .cls ∧
    Completes .cls s { fb := true } (fun t => ∀ x y, pixel t.fb x y = false)

/-- R98: `DXYN` XORs bit 7 - col of the byte at I + row into the pixel at ((VX + col) mod 64, (VY + row) mod 32), each
once, for N rows and 8 columns; every other pixel keeps its value; VF is 1 exactly when some pixel was on under a 1
bit, and is written for N = 0 too. VX and VY are the values before VF is written. N = 0 is the spec's decision D17,
the old VF as a coordinate D9 (log entry 8). -/
def Obligations.DrawXorsEachSpritePixelOnce : Prop :=
  ∀ (x y : Reg) (n : Fin 16) (s : State),
    EncodedAs (0xD000 + x.val * 256 + y.val * 16 + n.val) (.drw x y n) ∧
    Completes (.drw x y n) s { regs := fun k => k == 15, fb := true } (fun t =>
      let under (row col : Nat) (px : Fin 64) (py : Fin 32) : Prop :=
        row < n.val ∧ col < 8 ∧
          px.val = ((s.getV x).toNat + col) % 64 ∧ py.val = ((s.getV y).toNat + row) % 32
      let bit (row col : Nat) : Bool := (s.memRead (s.i.toNat + row)).getLsbD (7 - col)
      let collides : Prop := ∃ row col px py, under row col px py ∧ pixel s.fb px py = true ∧ bit row col = true
      (∀ row col px py, under row col px py → pixel t.fb px py = (pixel s.fb px py ^^ bit row col)) ∧
      (∀ px py, (∀ row col, ¬ under row col px py) → pixel t.fb px py = pixel s.fb px py) ∧
      (collides → t.getV 15 = 0x01#8) ∧ (¬ collides → t.getV 15 = 0x00#8))

/-- R99 item 1: the same `DXYN` twice, with VX and VY still the same at the second, restores the framebuffer. R99 is
marked as derived. -/
def Obligations.DrawingTwiceRestoresTheFramebuffer : Prop :=
  ∀ (x y : Reg) (n : Fin 16) (s t u : State), exec (.drw x y n) s = .next t →
    t.getV x = s.getV x → t.getV y = s.getV y → exec (.drw x y n) t = .next u → u.fb = s.fb

/-- R99 item 4: on a clear framebuffer a draw never collides; on an all-on one it collides exactly when the sprite has a 1
bit. R99 is marked as derived. -/
def Obligations.CollisionOnClearAndOnFullScreens : Prop :=
  ∀ (x y : Reg) (n : Fin 16) (s t : State), exec (.drw x y n) s = .next t →
    ((∀ px py, pixel s.fb px py = false) → t.getV 15 = 0x00#8) ∧
    ((∀ px py, pixel s.fb px py = true) →
      (t.getV 15 = 0x01#8 ↔ ∃ row, row < n.val ∧ s.memRead (s.i.toNat + row) ≠ 0x00#8))

/-! ## Keys -/

/-- R100 to R102: `EX9E` skips when the key named by the low four bits of VX is pressed, `EXA1` when it is not; nothing
else changes. The low four bits are the spec's decision D12 (log entry 8). -/
def Obligations.KeySkipsFollowTheKey : Prop :=
  ∀ (x : Reg) (k : Fin 16) (s : State), k.val = (s.getV x).toNat % 16 →
    let skipped := (s.pc.toNat + 2) % 4096
    EncodedAs (0xE09E + x.val * 256) (.skp x) ∧
    Completes (.skp x) s { pc := true } (fun t =>
      t.pc.toNat = if s.getKey k = true then skipped else s.pc.toNat) ∧
    EncodedAs (0xE0A1 + x.val * 256) (.sknp x) ∧
    Completes (.sknp x) s { pc := true } (fun t =>
      t.pc.toNat = if s.getKey k = true then s.pc.toNat else skipped)

/-- R103: `FX0A` takes the advance back and adds it again only if the key named by the low four bits of VX is down; no
register changes. Over a whole cycle PC moves on by 2 with the key down and stays with the key up, and the timers
decay. The form of the wait is the spec's decision D13, the low four bits D12 (log entry 8). -/
def Obligations.KeyWaitRepeatsUntilItsKeyIsDown : Prop :=
  ∀ (x : Reg) (k : Fin 16) (s : State), k.val = (s.getV x).toNat % 16 →
    EncodedAs (0xF00A + x.val * 256) (.waitKey x) ∧
    Completes (.waitKey x) s { pc := true } (fun t =>
      t.pc.toNat = if s.getKey k = true then s.pc.toNat % 4096 else (4096 + s.pc.toNat - 2) % 4096) ∧
    (decodeWord s.fetchWord = .ok (.waitKey x) →
      ∃ t, step s = .next t ∧
        t.pc.toNat = (if s.getKey k = true then (s.pc.toNat + 2) % 4096 else s.pc.toNat % 4096) ∧
        (∀ j, t.getV j = s.getV j) ∧ t.dt.toNat = s.dt.toNat - 1 ∧ t.st.toNat = s.st.toNat - 1)

/-- R63, R137: in a run of `core` in which the host does nothing between the cycles, of any number of cycles, a jump
to its own address, and an `FX0A` whose key is up, leave every piece of the spec's state unchanged but DT, ST and
TONE, which decay. That a run has no host operation in it is the model's choice (log entry 4, unsafe when read as a
run with a host), and so is the count of draws, which goes up by one a cycle (log entry 2). R63 is marked as derived
for the parked jump; the wait rests on D12 and D13, the tone latch on D18 (log entry 8). -/
def Obligations.ParkedAndWaitingCyclesOnlyDecayTheTimers : Prop :=
  ∀ (n : Nat) (s : State),
    ((∃ nnn, decodeWord s.fetchWord = .ok (.jp nnn) ∧ s.pc.toNat = nnn.toNat) ∨
      (∃ x, decodeWord s.fetchWord = .ok (.waitKey x) ∧ s.pc.toNat < 4096 ∧
        s.getKey (keyIndex (s.getV x)) = false)) →
    Host.Core.run Sys2Proof.core n s = .next (idled n s)

/-! ## Timers -/

/-- R104, R105, R106: `FX07` copies DT into VX before the decay; `FX15` and `FX18` load DT and ST from VX; at the end of
the same cycle the loaded timer holds one less, and the tone of an `FX18` cycle is on exactly when VX is above zero.
The tone latch is the spec's decision D18 (log entry 8). -/
def Obligations.TimerInstructionsAndTheDecayOfTheirCycle : Prop :=
  ∀ (x : Reg) (s : State),
    EncodedAs (0xF007 + x.val * 256) (.ldVxDt x) ∧
    Completes (.ldVxDt x) s (onlyReg x) (fun t => t.getV x = s.dt) ∧
    EncodedAs (0xF015 + x.val * 256) (.ldDtVx x) ∧
    Completes (.ldDtVx x) s { dt := true } (fun t => t.dt = s.getV x) ∧
    EncodedAs (0xF018 + x.val * 256) (.ldStVx x) ∧
    Completes (.ldStVx x) s { st := true } (fun t => t.st = s.getV x) ∧
    (decodeWord s.fetchWord = .ok (.ldVxDt x) →
      ∃ t, step s = .next t ∧ t.getV x = s.dt ∧ t.dt.toNat = s.dt.toNat - 1) ∧
    (decodeWord s.fetchWord = .ok (.ldDtVx x) → ∃ t, step s = .next t ∧ t.dt.toNat = (s.getV x).toNat - 1) ∧
    (decodeWord s.fetchWord = .ok (.ldStVx x) →
      ∃ t, step s = .next t ∧ t.st.toNat = (s.getV x).toNat - 1 ∧ t.tone = decide (0 < (s.getV x).toNat))

/-! ## The host's operations -/

/-- R128, R131, R26: `reset()` gives every piece of state its reset value, with FONT at 0x000..0x04F and zero above, from
any state; a newly constructed core is in the state `reset()` gives. It holds for every FONT. The values the source
does not list are the spec's decision D19 (log entry 8). -/
def Obligations.ResetGivesEveryResetValue : Prop :=
  ∀ s : State,
    let t := hostReset s
    (∀ k, t.getV k = 0x00#8) ∧ t.i = 0x0000#16 ∧ t.pc = 0x0200#16 ∧ (∀ k, t.getStack k = 0x0000#16) ∧ t.sp.val = 0 ∧
    t.dt = 0x00#8 ∧ t.st = 0x00#8 ∧ t.tone = false ∧ (∀ x y, pixel t.fb x y = false) ∧
    (∀ k, t.getKey k = false) ∧ t.diag = 0b000#3 ∧ t.mem.font = s.mem.font ∧
    (∀ a : Fin 80, t.memRead a.val = s.mem.font[a]) ∧ (∀ a, 80 ≤ a → a < 4096 → t.memRead a = 0x00#8) ∧
    ∀ (font : Font) (n : Nat), hostReset (State.powerOn font n) = State.powerOn font n

/-- R129, R130: `load_program` of at most 3584 bytes answers ok, resets, and copies the bytes to 0x200 on, every other
byte being as after reset; of more it answers ProgramTooLarge and the state is unchanged. Empty and odd lengths are
the spec's decision D20, the reset values D19 (log entry 8). -/
def Obligations.LoadProgramCopiesOrRefuses : Prop :=
  ∀ (bytes : List Byte) (s : State),
    (bytes.length ≤ 3584 →
      (loadProgram bytes s).1 = .ok ∧
      (∀ (j : Nat) (h : j < bytes.length), (loadProgram bytes s).2.memRead (0x200 + j) = bytes[j]) ∧
      (∀ a, a < 4096 → (a < 0x200 ∨ 0x200 + bytes.length ≤ a) →
        (loadProgram bytes s).2.memRead a = (hostReset s).memRead a) ∧
      { (loadProgram bytes s).2 with mem := (hostReset s).mem } = hostReset s) ∧
    (3584 < bytes.length → loadProgram bytes s = (.programTooLarge, s))

/-- R120 to R123: `set_key` writes its one key and nothing else; the observers return the framebuffer (cell (x, y) at
index y * 64 + x in a linear order), the tone latch, DT and DIAG, and change nothing, being functions of the state.
The linear order is the spec's decision D22, the tone latch D18, `diag()` D8 (log entry 8). -/
def Obligations.SetKeyAndTheObservers : Prop :=
  ∀ (s : State) (k : Fin 16) (pressed : Bool),
    (∀ j, (setKey k pressed s).getKey j = if j = k then pressed else s.getKey j) ∧
    { setKey k pressed s with keys := s.keys } = s ∧
    (∀ (x : Fin 64) (y : Fin 32) (c : Fin 2048), c.val = y.val * 64 + x.val → displayCell s c = pixel s.fb x y) ∧
    display s = s.fb ∧ soundActive s = s.tone ∧ delayValue s = s.dt ∧ diagBits s = s.diag
end

