-- ==== Sys2Proof/Laws/State.lean ====
section
/-! SUPPORT. One lemma per field of State per update: what each named operation leaves in each field. -/

namespace Sys2Proof.Machine

variable (s : State)

/-! ### State.setV -/

@[simp] theorem State.setV_v (x : Reg) (b : Byte) : (s.setV x b).v = s.v.set x b := rfl
@[simp] theorem State.setV_i (x : Reg) (b : Byte) : (s.setV x b).i = s.i := rfl
@[simp] theorem State.setV_pc (x : Reg) (b : Byte) : (s.setV x b).pc = s.pc := rfl
@[simp] theorem State.setV_stack (x : Reg) (b : Byte) : (s.setV x b).stack = s.stack := rfl
@[simp] theorem State.setV_sp (x : Reg) (b : Byte) : (s.setV x b).sp = s.sp := rfl
@[simp] theorem State.setV_dt (x : Reg) (b : Byte) : (s.setV x b).dt = s.dt := rfl
@[simp] theorem State.setV_st (x : Reg) (b : Byte) : (s.setV x b).st = s.st := rfl
@[simp] theorem State.setV_tone (x : Reg) (b : Byte) : (s.setV x b).tone = s.tone := rfl
@[simp] theorem State.setV_fb (x : Reg) (b : Byte) : (s.setV x b).fb = s.fb := rfl
@[simp] theorem State.setV_keys (x : Reg) (b : Byte) : (s.setV x b).keys = s.keys := rfl
@[simp] theorem State.setV_mem (x : Reg) (b : Byte) : (s.setV x b).mem = s.mem := rfl
@[simp] theorem State.setV_diag (x : Reg) (b : Byte) : (s.setV x b).diag = s.diag := rfl
@[simp] theorem State.setV_draws (x : Reg) (b : Byte) : (s.setV x b).draws = s.draws := rfl

/-! ### State.setPc -/

@[simp] theorem State.setPc_v (n : Nat) : (s.setPc n).v = s.v := rfl
@[simp] theorem State.setPc_i (n : Nat) : (s.setPc n).i = s.i := rfl
@[simp] theorem State.setPc_pc (n : Nat) : (s.setPc n).pc = mod4096 n := rfl
@[simp] theorem State.setPc_stack (n : Nat) : (s.setPc n).stack = s.stack := rfl
@[simp] theorem State.setPc_sp (n : Nat) : (s.setPc n).sp = s.sp := rfl
@[simp] theorem State.setPc_dt (n : Nat) : (s.setPc n).dt = s.dt := rfl
@[simp] theorem State.setPc_st (n : Nat) : (s.setPc n).st = s.st := rfl
@[simp] theorem State.setPc_tone (n : Nat) : (s.setPc n).tone = s.tone := rfl
@[simp] theorem State.setPc_fb (n : Nat) : (s.setPc n).fb = s.fb := rfl
@[simp] theorem State.setPc_keys (n : Nat) : (s.setPc n).keys = s.keys := rfl
@[simp] theorem State.setPc_mem (n : Nat) : (s.setPc n).mem = s.mem := rfl
@[simp] theorem State.setPc_diag (n : Nat) : (s.setPc n).diag = s.diag := rfl
@[simp] theorem State.setPc_draws (n : Nat) : (s.setPc n).draws = s.draws := rfl

/-! ### State.setI -/

@[simp] theorem State.setI_v (n : Nat) : (s.setI n).v = s.v := rfl
@[simp] theorem State.setI_i (n : Nat) : (s.setI n).i = mod4096 n := rfl
@[simp] theorem State.setI_pc (n : Nat) : (s.setI n).pc = s.pc := rfl
@[simp] theorem State.setI_stack (n : Nat) : (s.setI n).stack = s.stack := rfl
@[simp] theorem State.setI_sp (n : Nat) : (s.setI n).sp = s.sp := rfl
@[simp] theorem State.setI_dt (n : Nat) : (s.setI n).dt = s.dt := rfl
@[simp] theorem State.setI_st (n : Nat) : (s.setI n).st = s.st := rfl
@[simp] theorem State.setI_tone (n : Nat) : (s.setI n).tone = s.tone := rfl
@[simp] theorem State.setI_fb (n : Nat) : (s.setI n).fb = s.fb := rfl
@[simp] theorem State.setI_keys (n : Nat) : (s.setI n).keys = s.keys := rfl
@[simp] theorem State.setI_mem (n : Nat) : (s.setI n).mem = s.mem := rfl
@[simp] theorem State.setI_diag (n : Nat) : (s.setI n).diag = s.diag := rfl
@[simp] theorem State.setI_draws (n : Nat) : (s.setI n).draws = s.draws := rfl

/-! ### State.memWrite -/

@[simp] theorem State.memWrite_v (a : Nat) (b : Byte) : (s.memWrite a b).v = s.v := rfl
@[simp] theorem State.memWrite_i (a : Nat) (b : Byte) : (s.memWrite a b).i = s.i := rfl
@[simp] theorem State.memWrite_pc (a : Nat) (b : Byte) : (s.memWrite a b).pc = s.pc := rfl
@[simp] theorem State.memWrite_stack (a : Nat) (b : Byte) : (s.memWrite a b).stack = s.stack := rfl
@[simp] theorem State.memWrite_sp (a : Nat) (b : Byte) : (s.memWrite a b).sp = s.sp := rfl
@[simp] theorem State.memWrite_dt (a : Nat) (b : Byte) : (s.memWrite a b).dt = s.dt := rfl
@[simp] theorem State.memWrite_st (a : Nat) (b : Byte) : (s.memWrite a b).st = s.st := rfl
@[simp] theorem State.memWrite_tone (a : Nat) (b : Byte) : (s.memWrite a b).tone = s.tone := rfl
@[simp] theorem State.memWrite_fb (a : Nat) (b : Byte) : (s.memWrite a b).fb = s.fb := rfl
@[simp] theorem State.memWrite_keys (a : Nat) (b : Byte) : (s.memWrite a b).keys = s.keys := rfl
@[simp] theorem State.memWrite_mem (a : Nat) (b : Byte) : (s.memWrite a b).mem = s.mem.setByte (a % 4096) b := rfl
@[simp] theorem State.memWrite_diag (a : Nat) (b : Byte) : (s.memWrite a b).diag = s.diag := rfl
@[simp] theorem State.memWrite_draws (a : Nat) (b : Byte) : (s.memWrite a b).draws = s.draws := rfl

/-! ### State.advancePc -/

@[simp] theorem State.advancePc_v : (s.advancePc).v = s.v := rfl
@[simp] theorem State.advancePc_i : (s.advancePc).i = s.i := rfl
@[simp] theorem State.advancePc_pc : (s.advancePc).pc = mod4096 (s.pc.toNat + 2) := rfl
@[simp] theorem State.advancePc_stack : (s.advancePc).stack = s.stack := rfl
@[simp] theorem State.advancePc_sp : (s.advancePc).sp = s.sp := rfl
@[simp] theorem State.advancePc_dt : (s.advancePc).dt = s.dt := rfl
@[simp] theorem State.advancePc_st : (s.advancePc).st = s.st := rfl
@[simp] theorem State.advancePc_tone : (s.advancePc).tone = s.tone := rfl
@[simp] theorem State.advancePc_fb : (s.advancePc).fb = s.fb := rfl
@[simp] theorem State.advancePc_keys : (s.advancePc).keys = s.keys := rfl
@[simp] theorem State.advancePc_mem : (s.advancePc).mem = s.mem := rfl
@[simp] theorem State.advancePc_diag : (s.advancePc).diag = s.diag := rfl
@[simp] theorem State.advancePc_draws : (s.advancePc).draws = s.draws := rfl

/-! ### State.rollBackPc -/

@[simp] theorem State.rollBackPc_v : (s.rollBackPc).v = s.v := rfl
@[simp] theorem State.rollBackPc_i : (s.rollBackPc).i = s.i := rfl
@[simp] theorem State.rollBackPc_pc : (s.rollBackPc).pc = mod4096 (4096 + s.pc.toNat - 2) := rfl
@[simp] theorem State.rollBackPc_stack : (s.rollBackPc).stack = s.stack := rfl
@[simp] theorem State.rollBackPc_sp : (s.rollBackPc).sp = s.sp := rfl
@[simp] theorem State.rollBackPc_dt : (s.rollBackPc).dt = s.dt := rfl
@[simp] theorem State.rollBackPc_st : (s.rollBackPc).st = s.st := rfl
@[simp] theorem State.rollBackPc_tone : (s.rollBackPc).tone = s.tone := rfl
@[simp] theorem State.rollBackPc_fb : (s.rollBackPc).fb = s.fb := rfl
@[simp] theorem State.rollBackPc_keys : (s.rollBackPc).keys = s.keys := rfl
@[simp] theorem State.rollBackPc_mem : (s.rollBackPc).mem = s.mem := rfl
@[simp] theorem State.rollBackPc_diag : (s.rollBackPc).diag = s.diag := rfl
@[simp] theorem State.rollBackPc_draws : (s.rollBackPc).draws = s.draws := rfl

/-! ### decayTimers and endCycle -/

@[simp] theorem decayTimers_v : (decayTimers s).v = s.v := rfl
@[simp] theorem decayTimers_i : (decayTimers s).i = s.i := rfl
@[simp] theorem decayTimers_pc : (decayTimers s).pc = s.pc := rfl
@[simp] theorem decayTimers_stack : (decayTimers s).stack = s.stack := rfl
@[simp] theorem decayTimers_sp : (decayTimers s).sp = s.sp := rfl
@[simp] theorem decayTimers_dt : (decayTimers s).dt = decayed s.dt := rfl
@[simp] theorem decayTimers_st : (decayTimers s).st = decayed s.st := rfl
@[simp] theorem decayTimers_tone : (decayTimers s).tone = decide (s.st ≠ 0x00#8) := rfl
@[simp] theorem decayTimers_fb : (decayTimers s).fb = s.fb := rfl
@[simp] theorem decayTimers_keys : (decayTimers s).keys = s.keys := rfl
@[simp] theorem decayTimers_mem : (decayTimers s).mem = s.mem := rfl
@[simp] theorem decayTimers_diag : (decayTimers s).diag = s.diag := rfl
@[simp] theorem decayTimers_draws : (decayTimers s).draws = s.draws := rfl
@[simp] theorem endCycle_v : (endCycle s).v = s.v := rfl
@[simp] theorem endCycle_i : (endCycle s).i = s.i := rfl
@[simp] theorem endCycle_pc : (endCycle s).pc = s.pc := rfl
@[simp] theorem endCycle_stack : (endCycle s).stack = s.stack := rfl
@[simp] theorem endCycle_sp : (endCycle s).sp = s.sp := rfl
@[simp] theorem endCycle_dt : (endCycle s).dt = decayed s.dt := rfl
@[simp] theorem endCycle_st : (endCycle s).st = decayed s.st := rfl
@[simp] theorem endCycle_tone : (endCycle s).tone = decide (s.st ≠ 0x00#8) := rfl
@[simp] theorem endCycle_fb : (endCycle s).fb = s.fb := rfl
@[simp] theorem endCycle_keys : (endCycle s).keys = s.keys := rfl
@[simp] theorem endCycle_mem : (endCycle s).mem = s.mem := rfl
@[simp] theorem endCycle_diag : (endCycle s).diag = s.diag := rfl
@[simp] theorem endCycle_draws : (endCycle s).draws = s.draws + 1 := rfl

/-! ### raise -/

@[simp] theorem raise_v (c : Condition) : (raise c s).v = s.v := by cases c <;> rfl
@[simp] theorem raise_i (c : Condition) : (raise c s).i = s.i := by cases c <;> rfl
@[simp] theorem raise_pc (c : Condition) : (raise c s).pc = s.pc := by cases c <;> rfl
@[simp] theorem raise_stack (c : Condition) : (raise c s).stack = s.stack := by cases c <;> rfl
@[simp] theorem raise_sp (c : Condition) : (raise c s).sp = s.sp := by cases c <;> rfl
@[simp] theorem raise_dt (c : Condition) : (raise c s).dt = s.dt := by cases c <;> rfl
@[simp] theorem raise_st (c : Condition) : (raise c s).st = s.st := by cases c <;> rfl
@[simp] theorem raise_tone (c : Condition) : (raise c s).tone = s.tone := by cases c <;> rfl
theorem raise_fb (c : Condition) :
    (raise c s).fb = if c = .unknownOpcode then filled true else s.fb := by cases c <;> rfl
@[simp] theorem raise_keys (c : Condition) : (raise c s).keys = s.keys := by cases c <;> rfl
@[simp] theorem raise_mem (c : Condition) : (raise c s).mem = s.mem := by cases c <;> rfl
@[simp] theorem raise_diag (c : Condition) : (raise c s).diag = s.diag ||| c.bit := by cases c <;> rfl
@[simp] theorem raise_draws (c : Condition) : (raise c s).draws = s.draws := by cases c <;> rfl

/-! ### setKey and power-on -/

@[simp] theorem setKey_v (k : Fin 16) (p : Bool) : (setKey k p s).v = s.v := rfl
@[simp] theorem setKey_i (k : Fin 16) (p : Bool) : (setKey k p s).i = s.i := rfl
@[simp] theorem setKey_pc (k : Fin 16) (p : Bool) : (setKey k p s).pc = s.pc := rfl
@[simp] theorem setKey_stack (k : Fin 16) (p : Bool) : (setKey k p s).stack = s.stack := rfl
@[simp] theorem setKey_sp (k : Fin 16) (p : Bool) : (setKey k p s).sp = s.sp := rfl
@[simp] theorem setKey_dt (k : Fin 16) (p : Bool) : (setKey k p s).dt = s.dt := rfl
@[simp] theorem setKey_st (k : Fin 16) (p : Bool) : (setKey k p s).st = s.st := rfl
@[simp] theorem setKey_tone (k : Fin 16) (p : Bool) : (setKey k p s).tone = s.tone := rfl
@[simp] theorem setKey_fb (k : Fin 16) (p : Bool) : (setKey k p s).fb = s.fb := rfl
@[simp] theorem setKey_keys (k : Fin 16) (p : Bool) : (setKey k p s).keys = s.keys.set k p := rfl
@[simp] theorem setKey_mem (k : Fin 16) (p : Bool) : (setKey k p s).mem = s.mem := rfl
@[simp] theorem setKey_diag (k : Fin 16) (p : Bool) : (setKey k p s).diag = s.diag := rfl
@[simp] theorem setKey_draws (k : Fin 16) (p : Bool) : (setKey k p s).draws = s.draws := rfl

/-! ### skipIf: the program counter alone may move -/

/-- A skip changes nothing but the program counter. -/
theorem State.skipIf_eq (taken : Bool) :
    s.skipIf taken = { s with pc := if taken then mod4096 (s.pc.toNat + 2) else s.pc } := by
  cases taken <;> rfl

end Sys2Proof.Machine
end

