-- ==== Sys2Proof/Laws/Basic.lean ====
section
/-! SUPPORT. Small laws of words, registers, the program counter, the stack, pixels, keys and timers: one lemma for
each accessor after each write. -/

namespace Sys2Proof.Machine

/-! ## Reduction modulo 4096 (R12, R13) -/

@[simp] theorem mod4096_toNat (n : Nat) : (mod4096 n).toNat = n % 4096 := by
  simp only [mod4096, BitVec.toNat_ofNat]; omega

theorem mod4096_lt (n : Nat) : (mod4096 n).toNat < 4096 := by
  rw [mod4096_toNat]; omega

@[simp] theorem zext16_toNat (nnn : Addr12) : (zext16 nnn).toNat = nnn.toNat := by
  simp only [zext16, BitVec.toNat_setWidth]; omega

@[simp] theorem glyphAddr_toNat (vx : Byte) : (glyphAddr vx).toNat = vx.toNat * 5 := by
  simp only [glyphAddr, BitVec.toNat_ofNat]; omega

theorem State.effAddr_lt (s : State) (k : Nat) : s.effAddr k < 4096 := Nat.mod_lt _ (by decide)

@[simp] theorem State.effAddr_mod (s : State) (k : Nat) : s.effAddr k % 4096 = s.effAddr k :=
  Nat.mod_eq_of_lt (s.effAddr_lt k)

/-- Sixteen neighbouring effective addresses are distinct, the wrap at the top included (R35). -/
theorem State.effAddr_inj (s : State) {j k : Nat} (hj : j < 4096) (hk : k < 4096)
    (h : s.effAddr j = s.effAddr k) : j = k := by
  simp only [State.effAddr] at h; omega

/-! ## Registers -/

/-- A register after a register write. -/
theorem State.getV_setV (s : State) (x k : Reg) (b : Byte) :
    (s.setV x b).getV k = if k = x then b else s.getV k := by
  simp only [State.getV, State.setV, Fin.getElem_fin, Vector.getElem_set, Fin.ext_iff, eq_comm]

@[simp] theorem State.getV_setV_same (s : State) (x : Reg) (b : Byte) : (s.setV x b).getV x = b := by
  simp [State.getV_setV]

/-- The two writes of a flag instruction: the result wins where VX is VF (R60). -/
theorem State.getV_flagThenResult (s : State) (flag : Bool) (x k : Reg) (r : Byte) :
    (s.flagThenResult flag x r).getV k = if k = x then r else if k = regF then flagByte flag else s.getV k := by
  simp only [State.flagThenResult, State.getV_setV]

/-- Everything the two writes of a flag instruction can do: registers only. -/
theorem State.flagThenResult_eq (s : State) (flag : Bool) (x : Reg) (r : Byte) :
    s.flagThenResult flag x r = { s with v := (s.v.set regF (flagByte flag)).set x r } := rfl

theorem flagByte_toNat (b : Bool) : (flagByte b).toNat = b.toNat := by cases b <;> rfl

@[simp] theorem regNumber_val (k : Nat) : (regNumber k).val = k % 16 := rfl

theorem regNumber_of_reg (k : Reg) : regNumber k.val = k := by
  apply Fin.ext; simp only [regNumber_val]; omega

/-- The registers of `FX55` and `FX65` are 0 to X, both ends included (R92). -/
theorem mem_regsUpTo (x : Reg) (k : Nat) : k ∈ regsUpTo x ↔ k ≤ x.val := by
  simp only [regsUpTo, List.mem_range]; omega

/-! ## Pixels and keys -/

/-- A pixel after one pixel is written. -/
theorem pixel_setPixel (fb : Framebuffer) (x x' : Fin 64) (y y' : Fin 32) (b : Bool) :
    pixel (setPixel fb x y b) x' y' = if x' = x ∧ y' = y then b else pixel fb x' y' := by
  simp only [pixel, setPixel, Fin.getElem_fin, Vector.getElem_set, Fin.ext_iff]
  by_cases hy : y'.val = y.val
  · simp only [hy, Vector.getElem_set, if_true, and_true, eq_comm]
  · have hy' : ¬ y.val = y'.val := fun h => hy h.symm
    simp only [hy, hy', if_false, and_false]

@[simp] theorem pixel_filled (b : Bool) (x : Fin 64) (y : Fin 32) : pixel (filled b) x y = b := by
  simp [pixel, filled]

/-- Two framebuffers with equal pixels are equal. -/
theorem framebuffer_ext {f g : Framebuffer} (h : ∀ x y, pixel f x y = pixel g x y) : f = g := by
  apply Vector.ext; intro y hy
  apply Vector.ext; intro x hx
  exact h ⟨x, hx⟩ ⟨y, hy⟩

/-- One plotted pixel: the target cell is XORed, and the collision bit is set when it was on and the sprite bit is 1. -/
theorem plot_pixel (fb : Framebuffer) (hit : Bool) (x x' : Fin 64) (y y' : Fin 32) (bit : Bool) :
    pixel (plot fb hit x y bit).1 x' y' = if x' = x ∧ y' = y then pixel fb x y ^^ bit else pixel fb x' y' := by
  simp only [plot, pixel_setPixel]

theorem plot_hit (fb : Framebuffer) (hit : Bool) (x : Fin 64) (y : Fin 32) (bit : Bool) :
    (plot fb hit x y bit).2 = (hit || (pixel fb x y && bit)) := by
  simp only [plot]; cases hit <;> cases pixel fb x y <;> cases bit <;> rfl

/-- A key after `set_key` (R120). -/
theorem getKey_setKey (s : State) (k j : Fin 16) (p : Bool) :
    (setKey k p s).getKey j = if j = k then p else s.getKey j := by
  simp only [State.getKey, setKey_keys, Fin.getElem_fin, Vector.getElem_set, Fin.ext_iff, eq_comm]

@[simp] theorem keyIndex_val (vx : Byte) : (keyIndex vx).val = vx.toNat % 16 := by
  simp [keyIndex]

/-! ## Timers -/

/-- A decayed timer is one less, floored at zero (R61). -/
theorem decayed_toNat (t : Byte) : (decayed t).toNat = t.toNat - 1 := by
  unfold decayed
  split
  · next h => simp [h]
  · next h =>
    have : t.toNat ≠ 0 := fun h0 => h (BitVec.eq_of_toNat_eq h0)
    rw [BitVec.toNat_sub]; simp; omega

/-! ## Bytes and words -/

/-- The first byte of a word is the most significant (R32). -/
theorem wordOfBytes_toNat (hi lo : Byte) : (wordOfBytes hi lo).toNat = hi.toNat * 256 + lo.toNat := by
  simp only [wordOfBytes, BitVec.toNat_append]
  rw [← Nat.shiftLeft_add_eq_or_of_lt (by omega), Nat.shiftLeft_eq]

/-- A word is its two bytes. -/
theorem wordOfBytes_split (op : Word) : wordOfBytes (op.extractLsb' 8 8) (op.extractLsb' 0 8) = op := by
  apply BitVec.eq_of_toNat_eq
  rw [wordOfBytes_toNat]
  simp only [BitVec.extractLsb'_toNat, Nat.shiftRight_eq_div_pow]
  omega

end Sys2Proof.Machine
end

