-- ==== Sys2Proof/Laws/Decode.lean ====
section
/-! SUPPORT. Fields and formats as numbers: what each field of a word is (R45, R46), and what number each format makes
(R47). -/

namespace Sys2Proof

/-! ## Fields -/

@[simp] theorem nibble1_toNat (op : Word) : (nibble1 op).toNat = op.toNat / 4096 := by
  simp only [nibble1, BitVec.extractLsb'_toNat, Nat.shiftRight_eq_div_pow]; omega

@[simp] theorem nibble4_toNat (op : Word) : (nibble4 op).toNat = op.toNat % 16 := by
  simp only [nibble4, BitVec.extractLsb'_toNat, Nat.shiftRight_eq_div_pow]; omega

@[simp] theorem fieldX_val (op : Word) : (fieldX op).val = op.toNat / 256 % 16 := by
  simp only [fieldX, BitVec.val_toFin, BitVec.extractLsb'_toNat, Nat.shiftRight_eq_div_pow]

@[simp] theorem fieldY_val (op : Word) : (fieldY op).val = op.toNat / 16 % 16 := by
  simp only [fieldY, BitVec.val_toFin, BitVec.extractLsb'_toNat, Nat.shiftRight_eq_div_pow]

@[simp] theorem fieldN_val (op : Word) : (fieldN op).val = op.toNat % 16 := by
  simp only [fieldN, BitVec.val_toFin, nibble4_toNat]

@[simp] theorem fieldNN_toNat (op : Word) : (fieldNN op).toNat = op.toNat % 256 := by
  simp only [fieldNN, BitVec.extractLsb'_toNat, Nat.shiftRight_eq_div_pow]; omega

@[simp] theorem fieldNNN_toNat (op : Word) : (fieldNNN op).toNat = op.toNat % 4096 := by
  simp only [fieldNNN, BitVec.extractLsb'_toNat, Nat.shiftRight_eq_div_pow]; omega

/-! ## Formats -/

/-- A concatenation as a number: the left part weighs `2 ^ n`. -/
theorem append_toNat {m n : Nat} (a : BitVec m) (b : BitVec n) : (a ++ b).toNat = a.toNat * 2 ^ n + b.toNat := by
  rw [BitVec.toNat_append, ← Nat.shiftLeft_add_eq_or_of_lt b.isLt, Nat.shiftLeft_eq]

@[simp] theorem nib_toNat (k : Fin 16) : (nib k).toNat = k.val := rfl

@[simp] theorem formatNNN_toNat (n1 : BitVec 4) (nnn : Addr12) :
    (formatNNN n1 nnn).toNat = n1.toNat * 4096 + nnn.toNat := append_toNat n1 nnn

@[simp] theorem formatXNN_toNat (n1 : BitVec 4) (x : Reg) (nn : Byte) :
    (formatXNN n1 x nn).toNat = n1.toNat * 4096 + x.val * 256 + nn.toNat := by
  rw [formatXNN, append_toNat, append_toNat, nib_toNat]; omega

@[simp] theorem formatXYS_toNat (n1 : BitVec 4) (x y : Reg) (sub : BitVec 4) :
    (formatXYS n1 x y sub).toNat = n1.toNat * 4096 + x.val * 256 + y.val * 16 + sub.toNat := by
  rw [formatXYS, append_toNat, append_toNat, append_toNat, nib_toNat, nib_toNat]; omega

/-! ## Decoding -/

/-- Any word but the two exact ones is decoded by its leading nibble. -/
theorem decodeWord_of_ne {op : Word} (h : op ≠ 0x00E0#16) (h' : op ≠ 0x00EE#16) :
    decodeWord op = decodeLeading op := by
  rw [decodeWord, if_neg h, if_neg h']

/-- A word with a leading nibble other than 0 is decoded by it. -/
theorem decodeWord_of_ge {op : Word} (h : 4096 ≤ op.toNat) : decodeWord op = decodeLeading op := by
  apply decodeWord_of_ne <;> (rintro rfl; exact absurd h (by decide))

end Sys2Proof
end

