-- ==== Sys2Proof/Laws/Memory.lean ====
section
/-! SUPPORT. The laws of memory: a read after a write, every other place left alone, and the canonical form kept by
every memory operation. -/

namespace Sys2Proof.Machine

/-! ## Lists of cells -/

theorem lookupCell_insertCell (a c : Nat) (b : Byte) (l : List Host.Cell) :
    lookupCell c (insertCell a b l) = if c = a then some b else lookupCell c l := by
  induction l with
  | nil => simp only [insertCell, lookupCell, eq_comm]
  | cons d rest ih =>
    simp only [insertCell]
    by_cases h1 : a < d.1
    · simp only [h1, if_true, lookupCell, eq_comm]
    · by_cases h2 : a = d.1
      · subst h2; simp only [lt_irrefl, if_false, if_true, lookupCell]
        by_cases h3 : c = d.1
        · simp [h3]
        · simp [h3, Ne.symm h3]
      · simp only [h1, h2, if_false, lookupCell, ih]
        by_cases h3 : d.1 = c
        · have : ¬ c = a := by omega
          simp [h3, this]
        · simp [h3]

theorem lookupCell_eraseCell (a c : Nat) (l : List Host.Cell) :
    lookupCell c (eraseCell a l) = if c = a then none else lookupCell c l := by
  induction l with
  | nil => simp [eraseCell, lookupCell]
  | cons d rest ih =>
    simp only [eraseCell]
    by_cases h : d.1 = a
    · simp only [h, if_true, ih, lookupCell]
      by_cases h3 : c = a
      · simp [h3]
      · simp [h3, Ne.symm h3]
    · simp only [h, if_false, lookupCell, ih]
      by_cases h3 : d.1 = c
      · have : ¬ c = a := by omega
        simp [h3, this]
      · simp [h3]

theorem risingFrom_mono {lo lo' : Nat} (h : lo' ≤ lo) {l : List Host.Cell} (hl : risingFrom lo l = true) :
    risingFrom lo' l = true := by
  cases l with
  | nil => rfl
  | cons d rest =>
    simp only [risingFrom, Bool.and_eq_true, decide_eq_true_eq] at hl ⊢
    exact ⟨by omega, hl.2⟩

theorem risingFrom_insertCell {lo a : Nat} (b : Byte) (ha : lo ≤ a) {l : List Host.Cell}
    (hl : risingFrom lo l = true) : risingFrom lo (insertCell a b l) = true := by
  induction l generalizing lo with
  | nil => simp [insertCell, risingFrom, ha]
  | cons d rest ih =>
    simp only [risingFrom, Bool.and_eq_true, decide_eq_true_eq] at hl
    simp only [insertCell]
    by_cases h1 : a < d.1
    · simp only [h1, if_true, risingFrom, Bool.and_eq_true, decide_eq_true_eq]
      exact ⟨ha, by omega, hl.2⟩
    · by_cases h2 : a = d.1
      · subst h2
        simp only [lt_irrefl, if_false, if_true, risingFrom, Bool.and_eq_true, decide_eq_true_eq]
        exact ⟨ha, hl.2⟩
      · simp only [h1, h2, if_false, risingFrom, Bool.and_eq_true, decide_eq_true_eq]
        exact ⟨hl.1, ih (by omega) hl.2⟩

theorem risingFrom_eraseCell (a : Nat) {lo : Nat} {l : List Host.Cell} (hl : risingFrom lo l = true) :
    risingFrom lo (eraseCell a l) = true := by
  induction l generalizing lo with
  | nil => rfl
  | cons d rest ih =>
    simp only [risingFrom, Bool.and_eq_true, decide_eq_true_eq] at hl
    simp only [eraseCell]
    by_cases h : d.1 = a
    · simp only [h, if_true]
      exact risingFrom_mono (by omega) (ih hl.2)
    · simp only [h, if_false, risingFrom, Bool.and_eq_true, decide_eq_true_eq]
      exact ⟨hl.1, ih hl.2⟩

theorem mem_insertCell {a : Nat} {b : Byte} {c : Host.Cell} {l : List Host.Cell} (h : c ∈ insertCell a b l) :
    c = (a, b) ∨ c ∈ l := by
  induction l with
  | nil => simpa [insertCell] using h
  | cons d rest ih =>
    simp only [insertCell] at h
    split at h
    · simpa using h
    · split at h
      · rcases List.mem_cons.1 h with h | h
        · exact .inl h
        · exact .inr (List.mem_cons_of_mem _ h)
      · rcases List.mem_cons.1 h with h | h
        · exact .inr (by simp [h])
        · exact (ih h).imp_right (List.mem_cons_of_mem _)

theorem mem_eraseCell {a : Nat} {c : Host.Cell} {l : List Host.Cell} (h : c ∈ eraseCell a l) : c ∈ l := by
  induction l with
  | nil => simp [eraseCell] at h
  | cons d rest ih =>
    simp only [eraseCell] at h
    split at h
    · exact List.mem_cons_of_mem _ (ih h)
    · rcases List.mem_cons.1 h with h | h
      · simp [h]
      · exact List.mem_cons_of_mem _ (ih h)

/-! ## Memory -/

@[simp] theorem Memory.setByte_font (m : Memory) (a : Nat) (b : Byte) : (m.setByte a b).font = m.font := by
  unfold Memory.setByte; split <;> rfl

@[simp] theorem Memory.setByte_resetByte (m : Memory) (a c : Nat) (b : Byte) :
    (m.setByte a b).resetByte c = m.resetByte c := by
  simp [Memory.resetByte]

/-- A byte after a byte is written: the written one there, every other as before (R31, R36). -/
theorem Memory.byteAt_setByte (m : Memory) (a c : Nat) (b : Byte) :
    (m.setByte a b).byteAt c = if c = a then b else m.byteAt c := by
  by_cases hb : b = m.resetByte a
  · simp only [Memory.byteAt, Memory.setByte, if_pos hb, lookupCell_eraseCell]
    by_cases h : c = a
    · subst h; simp [hb, Memory.resetByte]
    · simp [h, Memory.resetByte]
  · simp only [Memory.byteAt, Memory.setByte, if_neg hb, lookupCell_insertCell]
    by_cases h : c = a
    · simp [h]
    · simp [h, Memory.resetByte]

/-- Writing a byte keeps the canonical form. -/
theorem Memory.wf_setByte {m : Memory} {a : Nat} (ha : a < 4096) (b : Byte) (h : m.wf = true) :
    (m.setByte a b).wf = true := by
  simp only [Memory.wf, Bool.and_eq_true, List.all_eq_true, decide_eq_true_eq, bne_iff_ne,
    Memory.setByte_resetByte] at h ⊢
  by_cases hb : b = m.resetByte a
  · have hc : (m.setByte a b).cells = eraseCell a m.cells := by simp [Memory.setByte, hb]
    rw [hc]
    exact ⟨risingFrom_eraseCell a h.1, fun c hc => h.2 c (mem_eraseCell hc)⟩
  · have hc : (m.setByte a b).cells = insertCell a b m.cells := by simp [Memory.setByte, hb]
    rw [hc]
    refine ⟨risingFrom_insertCell b (Nat.zero_le _) h.1, fun c hc => ?_⟩
    rcases mem_insertCell hc with rfl | hc
    · exact ⟨ha, hb⟩
    · exact h.2 c hc

/-- A read after a write: addresses are compared modulo 4096 (R31). -/
theorem State.memRead_memWrite (s : State) (a c : Nat) (b : Byte) :
    (s.memWrite a b).memRead c = if c % 4096 = a % 4096 then b else s.memRead c := by
  simp only [State.memRead, State.memWrite_mem, Memory.byteAt_setByte]

/-- A write keeps the canonical form, whatever the address. -/
theorem State.memWrite_wf (s : State) (a : Nat) (b : Byte) (h : s.mem.wf = true) :
    (s.memWrite a b).mem.wf = true :=
  Memory.wf_setByte (Nat.mod_lt _ (by decide)) b h

@[simp] theorem State.memWrite_font (s : State) (a : Nat) (b : Byte) : (s.memWrite a b).mem.font = s.mem.font := by
  simp

/-- The memory of a state at power-on has the canonical form, for any font. -/
theorem State.powerOn_wf (font : Font) (n : Nat) : (State.powerOn font n).mem.wf = true := rfl

/-- The memory at reset has the canonical form. -/
theorem State.reset_wf : State.reset.mem.wf = true := rfl

/-- The fetch after a word is placed reads that word. -/
theorem State.fetchWord_placeWord (s : State) (op : Word) : (s.placeWord op).fetchWord = op := by
  have h : ¬ (s.pc.toNat % 4096 = (s.pc.toNat + 1) % 4096) := by omega
  simp only [State.fetchWord, State.placeWord, State.memWrite_pc, State.memRead_memWrite, h, if_true, if_false]
  exact wordOfBytes_split op

end Sys2Proof.Machine
end

