-- ==== Sys2Proof/Laws/Exec.lean ====
section
/-! SUPPORT. What the shared operations of the handlers can do, each said once: the loops of `FX55`, `FX65` and
`load_program`, the stores of `FX33`, the stack, one sprite row; and what a step is, in terms of its handler. -/

namespace Sys2Proof.Machine

/-! ## The loops of FX55, FX65, load_program -/

/-- The stores of a list of registers touch memory only. -/
theorem storeList_eq (latched : State) (ks : List Nat) (s : State) :
    storeList latched ks s = { s with mem := (storeList latched ks s).mem } := by
  unfold storeList
  induction ks generalizing s with
  | nil => rfl
  | cons k rest ih => rw [List.foldl_cons, ih]; rfl

/-- A byte after the stores of a list of registers: outside their addresses it is as before. -/
theorem storeList_memRead_other (latched : State) (ks : List Nat) (s : State) (a : Nat)
    (h : ∀ k ∈ ks, a % 4096 ≠ latched.effAddr k) : (storeList latched ks s).memRead a = s.memRead a := by
  unfold storeList
  induction ks generalizing s with
  | nil => rfl
  | cons k rest ih =>
    rw [List.foldl_cons, ih _ fun j hj => h j (List.mem_cons_of_mem _ hj), State.memRead_memWrite,
      State.effAddr_mod, if_neg (h k List.mem_cons_self)]

/-- A byte after the stores of a list of registers: at the address of one of them it is that register. -/
theorem storeList_memRead_mem (latched : State) (ks : List Nat) (s : State) (hb : ∀ j ∈ ks, j < 4096)
    {k : Nat} (hk : k ∈ ks) :
    (storeList latched ks s).memRead (latched.effAddr k) = latched.getV (regNumber k) := by
  unfold storeList
  induction ks using List.reverseRecOn with
  | nil => simp at hk
  | append_singleton init j ih =>
    rw [List.foldl_append, List.foldl_cons, List.foldl_nil, State.memRead_memWrite, State.effAddr_mod, State.effAddr_mod]
    by_cases hjk : latched.effAddr k = latched.effAddr j
    · rw [if_pos hjk, latched.effAddr_inj (hb k hk) (hb j (by simp)) hjk]
    · rw [if_neg hjk]
      rcases List.mem_append.1 hk with h | h
      · exact ih (fun i hi => hb i (List.mem_append_left _ hi)) h
      · exact absurd (by rw [List.mem_singleton.1 h]) hjk

/-- The stores of a list of registers keep the canonical form and the font. -/
theorem storeList_wf (latched : State) (ks : List Nat) (s : State) (h : s.mem.wf = true) :
    (storeList latched ks s).mem.wf = true := by
  unfold storeList
  induction ks generalizing s with
  | nil => exact h
  | cons k rest ih => exact ih _ (s.memWrite_wf _ _ h)

theorem storeList_font (latched : State) (ks : List Nat) (s : State) :
    (storeList latched ks s).mem.font = s.mem.font := by
  unfold storeList
  induction ks generalizing s with
  | nil => rfl
  | cons k rest ih => rw [List.foldl_cons, ih, State.memWrite_font]

/-- The loads of a list of registers touch the registers only. -/
theorem loadList_eq (source : State) (ks : List Nat) (s : State) :
    loadList source ks s = { s with v := (loadList source ks s).v } := by
  unfold loadList
  induction ks generalizing s with
  | nil => rfl
  | cons k rest ih => rw [List.foldl_cons, ih]; rfl

/-- A register after the loads of a list of registers numbered below 16. -/
theorem loadList_getV (source : State) (ks : List Nat) (s : State) (hb : ∀ j ∈ ks, j < 16) (k : Reg) :
    (loadList source ks s).getV k =
      if k.val ∈ ks then source.memRead (source.effAddr k.val) else s.getV k := by
  unfold loadList
  induction ks using List.reverseRecOn with
  | nil => simp
  | append_singleton init j ih =>
    have hj : j < 16 := hb j (by simp)
    rw [List.foldl_append, List.foldl_cons, List.foldl_nil, State.getV_setV,
      ih fun i hi => hb i (List.mem_append_left _ hi)]
    by_cases h : k = regNumber j
    · have hkj : k.val = j := by rw [h, regNumber_val]; omega
      rw [if_pos h, if_pos (by rw [hkj]; simp), hkj]
    · have : k.val ≠ j := fun h' => h (by apply Fin.ext; rw [regNumber_val]; omega)
      simp [h, this]

/-- `load_program`'s copy touches memory only. -/
theorem loadBytes_eq (base : Nat) (bytes : List Byte) (s : State) :
    loadBytes base bytes s = { s with mem := (loadBytes base bytes s).mem } := by
  induction bytes generalizing base s with
  | nil => rfl
  | cons b rest ih => rw [loadBytes, ih]; rfl

/-- The copy keeps the canonical form. -/
theorem loadBytes_wf (base : Nat) (bytes : List Byte) (s : State) (h : s.mem.wf = true) :
    (loadBytes base bytes s).mem.wf = true := by
  induction bytes generalizing base s with
  | nil => exact h
  | cons b rest ih => exact ih _ _ (s.memWrite_wf _ _ h)

/-- A byte below the copied range, or above it within memory, is as before. -/
theorem loadBytes_memRead_other (base : Nat) (bytes : List Byte) (s : State) (a : Nat)
    (hb : base + bytes.length ≤ 4096) (ha : a < 4096) (h : a < base ∨ base + bytes.length ≤ a) :
    (loadBytes base bytes s).memRead a = s.memRead a := by
  induction bytes generalizing base s with
  | nil => rfl
  | cons b rest ih =>
    simp only [List.length_cons] at hb h
    rw [loadBytes, ih _ _ (by omega) (by omega), State.memRead_memWrite, if_neg (by omega)]

/-- A byte of the copied range. -/
theorem loadBytes_memRead_mem (base : Nat) (bytes : List Byte) (s : State) (hb : base + bytes.length ≤ 4096)
    (j : Nat) (hj : j < bytes.length) : (loadBytes base bytes s).memRead (base + j) = bytes[j] := by
  induction bytes generalizing base s j with
  | nil => simp at hj
  | cons b rest ih =>
    simp only [List.length_cons] at hb hj
    rw [loadBytes]
    cases j with
    | zero =>
      rw [Nat.add_zero, loadBytes_memRead_other _ _ _ _ (by omega) (by omega) (by omega),
        State.memRead_memWrite, if_pos (by rfl)]; rfl
    | succ i =>
      have := ih (base + 1) (s.memWrite base b) (by omega) i (by omega)
      rw [show base + (i + 1) = base + 1 + i by omega, this]; rfl

/-- The three stores of `FX33` touch memory only. -/
theorem State.storeBcd_eq (s : State) (vx : Byte) :
    s.storeBcd vx = { s with mem := (s.storeBcd vx).mem } := rfl

/-- A byte after the three stores of `FX33`. -/
theorem State.storeBcd_memRead (s : State) (vx : Byte) (a : Nat) :
    (s.storeBcd vx).memRead a =
      if a % 4096 = s.effAddr 2 then bcdOnes vx
      else if a % 4096 = s.effAddr 1 then bcdTens vx
      else if a % 4096 = s.effAddr 0 then bcdHundreds vx
      else s.memRead a := by
  simp only [State.storeBcd, State.memRead_memWrite, State.effAddr_mod]

/-! ## The draw loops -/

/-- A draw loop over pixels, each at a place of its own: what it does to every pixel and to the collision bit, given
where the loop's steps land. -/
theorem plotList_spec {α : Type} (px : α → Fin 64) (py : α → Fin 32) (bit : α → Bool) (l : List α)
    (hd : l.Pairwise (fun a b => ¬ (px a = px b ∧ py a = py b))) (d : Framebuffer × Bool) :
    (∀ a ∈ l, pixel (l.foldl (fun d a => plot d.1 d.2 (px a) (py a) (bit a)) d).1 (px a) (py a) =
      (pixel d.1 (px a) (py a) ^^ bit a)) ∧
    (∀ x y, (∀ a ∈ l, ¬ (px a = x ∧ py a = y)) →
      pixel (l.foldl (fun d a => plot d.1 d.2 (px a) (py a) (bit a)) d).1 x y = pixel d.1 x y) ∧
    ((l.foldl (fun d a => plot d.1 d.2 (px a) (py a) (bit a)) d).2 = true ↔
      d.2 = true ∨ ∃ a ∈ l, pixel d.1 (px a) (py a) = true ∧ bit a = true) := by
  induction l generalizing d with
  | nil => simp
  | cons c rest ih =>
    obtain ⟨hc, hrest⟩ := List.pairwise_cons.1 hd
    obtain ⟨i1, i2, i3⟩ := ih hrest (plot d.1 d.2 (px c) (py c) (bit c))
    simp only [List.foldl_cons]
    have hkeep : ∀ a ∈ rest, pixel (plot d.1 d.2 (px c) (py c) (bit c)).1 (px a) (py a) = pixel d.1 (px a) (py a) := by
      intro a ha
      rw [plot_pixel, if_neg fun h => hc a ha ⟨h.1.symm, h.2.symm⟩]
    refine ⟨?_, ?_, ?_⟩
    · intro a ha
      rcases List.mem_cons.1 ha with rfl | ha
      · rw [i2 _ _ fun b hb h => hc b hb ⟨h.1.symm, h.2.symm⟩, plot_pixel, if_pos ⟨rfl, rfl⟩]
      · rw [i1 a ha, hkeep a ha]
    · intro x y h
      rw [i2 x y fun a ha => h a (List.mem_cons_of_mem _ ha), plot_pixel,
        if_neg fun h' => h c List.mem_cons_self ⟨h'.1.symm, h'.2.symm⟩]
    · rw [i3, plot_hit, Bool.or_eq_true, Bool.and_eq_true]
      constructor
      · rintro ((h | h) | ⟨a, ha, h⟩)
        · exact .inl h
        · exact .inr ⟨c, List.mem_cons_self, h⟩
        · exact .inr ⟨a, List.mem_cons_of_mem _ ha, by rw [← hkeep a ha]; exact h.1, h.2⟩
      · rintro (h | ⟨a, ha, h⟩)
        · exact .inl (.inl h)
        · rcases List.mem_cons.1 ha with rfl | ha
          · exact .inl (.inr h)
          · exact .inr ⟨a, ha, by rw [hkeep a ha]; exact h.1, h.2⟩

/-- The rows and columns of a sprite with `n` rows, in the order of the loops of R98. -/
def spriteCells (n : Nat) : List (Nat × Nat) := (List.range n).flatMap (fun row => (List.range 8).map (Prod.mk row))

theorem mem_spriteCells (n row col : Nat) : (row, col) ∈ spriteCells n ↔ row < n ∧ col < 8 := by
  simp [spriteCells]

/-- The two nested loops of a draw are one loop over the sprite's cells. -/
theorem drawRows_eq (s : State) (vx vy n : Nat) (d : Framebuffer × Bool) :
    drawRows s vx vy (List.range n) d =
      (spriteCells n).foldl (fun d c => plot d.1 d.2 (columnOf (vx + c.2)) (lineOf (vy + c.1))
        (spriteBit (s.memRead (s.effAddr c.1)) c.2)) d := by
  unfold drawRows drawCols spriteCells
  rw [List.foldl_flatMap]
  simp only [List.foldl_map]

/-- No two cells of a sprite of at most 15 rows fall on the same pixel (R98). -/
theorem spriteCells_pairwise (vx vy n : Nat) (hn : n ≤ 32) :
    (spriteCells n).Pairwise (fun a b => ¬ (columnOf (vx + a.2) = columnOf (vx + b.2) ∧
      lineOf (vy + a.1) = lineOf (vy + b.1))) := by
  rw [spriteCells, List.pairwise_flatMap]
  constructor
  · intro row _
    rw [List.pairwise_map]
    refine List.Pairwise.imp_of_mem ?_ (List.pairwise_lt_range (n := 8))
    intro a b ha hb hab h
    have h1 := congrArg Fin.val h.1
    simp only [columnOf, Fin.ofNat, List.mem_range] at h1 ha hb
    omega
  · refine List.Pairwise.imp_of_mem ?_ (List.pairwise_lt_range (n := n))
    intro r r' hr hr' hlt a ha b hb h
    obtain ⟨_, _, rfl⟩ := List.mem_map.1 ha
    obtain ⟨_, _, rfl⟩ := List.mem_map.1 hb
    have h2 := congrArg Fin.val h.2
    simp only [lineOf, Fin.ofNat, List.mem_range] at h2 hr hr'
    omega

/-! ## The stack -/

/-- A pop: StackUnderflow, or the pointer one lower and PC from the slot it then names (R65). -/
theorem State.pop_cases (s : State) :
    (s.sp.val = 0 ∧ s.pop = raise .stackUnderflow s) ∨
    (∃ h : 0 < s.sp.val,
      s.pop = { s with sp := ⟨s.sp.val - 1, by omega⟩, pc := s.getStack ⟨s.sp.val - 1, by omega⟩ }) := by
  unfold State.pop
  by_cases h : s.sp.val = 0
  · exact .inl ⟨h, by simp [h]⟩
  · exact .inr ⟨by omega, by simp [h]⟩

/-- A push: StackOverflow, or PC in the slot the pointer names, the pointer one higher, and the jump (R67). -/
theorem State.pushAndJump_cases (s : State) (target : Word) :
    (s.sp.val = 16 ∧ s.pushAndJump target = raise .stackOverflow s) ∨
    (∃ h : s.sp.val < 16, s.pushAndJump target =
      { s with stack := s.stack.set s.sp.val s.pc h, sp := ⟨s.sp.val + 1, by omega⟩, pc := target }) := by
  unfold State.pushAndJump
  by_cases h : s.sp.val = 16
  · exact .inl ⟨h, by simp [h]⟩
  · exact .inr ⟨by omega, by simp [h]⟩

/-! ## The handlers and the step -/

/-- The state a handler answers; `exec_eq` says that `exec` answers it always. -/
def after (i : Instr) (s : State) : State :=
  match exec i s with
  | .next t => t
  | .fault r => nomatch r
  | .refused _ => s

/-- Every handler answers a next state (R112). -/
theorem exec_eq (i : Instr) (s : State) : exec i s = .next (after i s) := by cases i <;> rfl

/-- A step whose word decodes is its handler's next state with the end of the cycle (R56). -/
theorem step_of_decode {s : State} {i : Instr} (h : decodeWord s.fetchWord = .ok i) :
    step s = .next (endCycle (after i s.advancePc)) := by
  simp only [step, h, exec_eq, finishCycle]

/-- A step whose word matches no row (R108). -/
theorem step_of_reject {s : State} {r : DecodeReject} (h : decodeWord s.fetchWord = .error r) :
    step s = .next (unknownCycle s) := by
  simp only [step, h]

/-- All a step can do. -/
theorem step_cases {s t : State} (h : step s = .next t) :
    (∃ i, decodeWord s.fetchWord = .ok i ∧ t = endCycle (after i s.advancePc)) ∨
    (∃ r, decodeWord s.fetchWord = .error r ∧ t = unknownCycle s) := by
  cases hd : decodeWord s.fetchWord with
  | ok i =>
    rw [step_of_decode hd] at h
    exact .inl ⟨i, rfl, by injection h with h; exact h.symm⟩
  | error r =>
    rw [step_of_reject hd] at h
    exact .inr ⟨r, rfl, by injection h with h; exact h.symm⟩

end Sys2Proof.Machine
end

