-- ==== Sys2Proof/Laws/PerInstr.lean ====
section
/-! SUPPORT. For every instruction: its encoded word matches the mask and the match value of its row in R49. -/

namespace Sys2Proof

/-! ## Masks -/

theorem formatNNN_mask (n1 : BitVec 4) (nnn : Addr12) :
    formatNNN n1 nnn &&& 0xF000#16 = n1 ++ 0x000#12 := by
  rw [formatNNN, show (0xF000#16 : Word) = 0xF#4 ++ 0x000#12 from rfl, BitVec.and_append, BitVec.and_zero]
  congr 1; exact BitVec.and_allOnes

theorem formatXNN_mask (n1 : BitVec 4) (x : Reg) (nn : Byte) :
    formatXNN n1 x nn &&& 0xF000#16 = n1 ++ 0x000#12 := by
  rw [formatXNN, show (0xF000#16 : Word) = 0xF#4 ++ 0x000#12 from rfl, BitVec.and_append, BitVec.and_zero]
  congr 1; exact BitVec.and_allOnes

theorem formatXNN_subMask (n1 : BitVec 4) (x : Reg) (nn : Byte) :
    formatXNN n1 x nn &&& 0xF0FF#16 = n1 ++ (0x0#4 ++ nn : BitVec 12) := by
  rw [formatXNN, show (0xF0FF#16 : Word) = 0xF#4 ++ (0x0#4 ++ 0xFF#8 : BitVec 12) from rfl, BitVec.and_append,
    BitVec.and_append, BitVec.and_zero]
  congr 1
  · exact BitVec.and_allOnes
  · congr 1; exact BitVec.and_allOnes

theorem formatXYS_mask (n1 : BitVec 4) (x y : Reg) (sub : BitVec 4) :
    formatXYS n1 x y sub &&& 0xF000#16 = n1 ++ 0x000#12 := by
  rw [formatXYS, show (0xF000#16 : Word) = 0xF#4 ++ 0x000#12 from rfl, BitVec.and_append, BitVec.and_zero]
  congr 1; exact BitVec.and_allOnes

theorem formatXYS_subMask (n1 : BitVec 4) (x y : Reg) (sub : BitVec 4) :
    formatXYS n1 x y sub &&& 0xF00F#16 = n1 ++ (0x0#4 ++ (0x0#4 ++ sub : BitVec 8) : BitVec 12) := by
  rw [formatXYS, show (0xF00F#16 : Word) = 0xF#4 ++ (0x0#4 ++ (0x0#4 ++ 0xF#4 : BitVec 8) : BitVec 12) from rfl,
    BitVec.and_append, BitVec.and_append, BitVec.and_append, BitVec.and_zero, BitVec.and_zero]
  congr 1
  · exact BitVec.and_allOnes
  · congr 2; exact BitVec.and_allOnes

/-! ## Masks of any word, as numbers -/

theorem and_F000_toNat (op : Word) : (op &&& 0xF000#16).toNat = op.toNat / 4096 * 4096 := by
  have h : op = formatNNN (nibble1 op) (fieldNNN op) := by apply BitVec.eq_of_toNat_eq; simp; omega
  conv_lhs => rw [h, formatNNN_mask]
  rw [append_toNat, nibble1_toNat]; simp

theorem and_F00F_toNat (op : Word) : (op &&& 0xF00F#16).toNat = op.toNat / 4096 * 4096 + op.toNat % 16 := by
  have h : op = formatXYS (nibble1 op) (fieldX op) (fieldY op) (nibble4 op) := by
    apply BitVec.eq_of_toNat_eq; simp; omega
  conv_lhs => rw [h, formatXYS_subMask]
  rw [append_toNat, append_toNat, append_toNat, nibble1_toNat, nibble4_toNat]; simp

theorem and_F0FF_toNat (op : Word) : (op &&& 0xF0FF#16).toNat = op.toNat / 4096 * 4096 + op.toNat % 256 := by
  have h : op = formatXNN (nibble1 op) (fieldX op) (fieldNN op) := by
    apply BitVec.eq_of_toNat_eq; simp; omega
  conv_lhs => rw [h, formatXNN_subMask]
  rw [append_toNat, append_toNat, nibble1_toNat, fieldNN_toNat]; simp

theorem and_FFFF (op : Word) : op &&& 0xFFFF#16 = op := BitVec.and_allOnes

namespace Laws.MatchesRow

/-- The word of `i` matches its row of the opcode table: `op AND mask = match` (R49). -/
def Statement (i : Instr) : Prop := encode i &&& (rowOf i).1 = (rowOf i).2

theorem cls : Statement .cls := rfl
theorem ret : Statement .ret := rfl
theorem sys (nnn : Addr12) : Statement (.sys nnn) := formatNNN_mask _ _
theorem jp (nnn : Addr12) : Statement (.jp nnn) := formatNNN_mask _ _
theorem call (nnn : Addr12) : Statement (.call nnn) := formatNNN_mask _ _
theorem seImm (x : Reg) (nn : Byte) : Statement (.seImm x nn) := formatXNN_mask _ _ _
theorem sneImm (x : Reg) (nn : Byte) : Statement (.sneImm x nn) := formatXNN_mask _ _ _
theorem seReg (x y : Reg) : Statement (.seReg x y) := formatXYS_subMask _ _ _ _
theorem ldImm (x : Reg) (nn : Byte) : Statement (.ldImm x nn) := formatXNN_mask _ _ _
theorem addImm (x : Reg) (nn : Byte) : Statement (.addImm x nn) := formatXNN_mask _ _ _
theorem ldReg (x y : Reg) : Statement (.ldReg x y) := formatXYS_subMask _ _ _ _
theorem orReg (x y : Reg) : Statement (.orReg x y) := formatXYS_subMask _ _ _ _
theorem andReg (x y : Reg) : Statement (.andReg x y) := formatXYS_subMask _ _ _ _
theorem xorReg (x y : Reg) : Statement (.xorReg x y) := formatXYS_subMask _ _ _ _
theorem addReg (x y : Reg) : Statement (.addReg x y) := formatXYS_subMask _ _ _ _
theorem subReg (x y : Reg) : Statement (.subReg x y) := formatXYS_subMask _ _ _ _
theorem shr (x y : Reg) : Statement (.shr x y) := formatXYS_subMask _ _ _ _
theorem subn (x y : Reg) : Statement (.subn x y) := formatXYS_subMask _ _ _ _
theorem shl (x y : Reg) : Statement (.shl x y) := formatXYS_subMask _ _ _ _
theorem sneReg (x y : Reg) : Statement (.sneReg x y) := formatXYS_subMask _ _ _ _
theorem ldI (nnn : Addr12) : Statement (.ldI nnn) := formatNNN_mask _ _
theorem jpV0 (nnn : Addr12) : Statement (.jpV0 nnn) := formatNNN_mask _ _
theorem rnd (x : Reg) (nn : Byte) : Statement (.rnd x nn) := formatXNN_mask _ _ _
theorem drw (x y : Reg) (n : Fin 16) : Statement (.drw x y n) := formatXYS_mask _ _ _ _
theorem skp (x : Reg) : Statement (.skp x) := formatXNN_subMask _ _ _
theorem sknp (x : Reg) : Statement (.sknp x) := formatXNN_subMask _ _ _
theorem ldVxDt (x : Reg) : Statement (.ldVxDt x) := formatXNN_subMask _ _ _
theorem waitKey (x : Reg) : Statement (.waitKey x) := formatXNN_subMask _ _ _
theorem ldDtVx (x : Reg) : Statement (.ldDtVx x) := formatXNN_subMask _ _ _
theorem ldStVx (x : Reg) : Statement (.ldStVx x) := formatXNN_subMask _ _ _
theorem addI (x : Reg) : Statement (.addI x) := formatXNN_subMask _ _ _
theorem ldF (x : Reg) : Statement (.ldF x) := formatXNN_subMask _ _ _
theorem bcd (x : Reg) : Statement (.bcd x) := formatXNN_subMask _ _ _
theorem storeRegs (x : Reg) : Statement (.storeRegs x) := formatXNN_subMask _ _ _
theorem loadRegs (x : Reg) : Statement (.loadRegs x) := formatXNN_subMask _ _ _

end Laws.MatchesRow

end Sys2Proof
end

