-- ==== Sys2Proof/Tests/Slice0.lean ====
section
/-! SUPPORT. Tests: the checks of WellFormed, one word per instruction written out bit by bit from the rows of
spec/30_encoding.md R49, single cycles with the results spec/95_test_vectors.md gives (each test names its vector), and
a witness for the hypotheses of every statement that has some. -/

namespace Sys2Proof.Tests

open Sys2Proof.Machine Sys2Proof.Safety

/-! ## Helpers -/

/-- The reset state with one instruction word at 0x200 (the convention of spec/95_test_vectors.md). -/
def at200 (w : Nat) : State := State.reset.withFetchWord 16 w

/-- Some registers set. -/
def regs (l : List (Reg × Byte)) (s : State) : State := l.foldl (fun t p => t.setV p.1 p.2) s

/-- PC moved to `pc`, and an instruction word there. -/
def at' (pc : Word) (w : Nat) : State := ({ State.reset with pc := pc } : State).withFetchWord 16 w

/-- One cycle. -/
def cycle (s : State) : State :=
  match step s with
  | .next t => t
  | .fault r => nomatch r
  | .refused _ => s

/-- Every step is the `cycle` of these tests. -/
theorem step_eq_cycle (s : State) : step s = .next (cycle s) := by
  cases hd : decodeWord s.fetchWord with
  | ok i => simp only [cycle, step_of_decode hd]
  | error r => simp only [cycle, step_of_reject hd]

/-- The cells that are on, as (column, row), row by row. -/
def lit (fb : Framebuffer) : List (Nat × Nat) :=
  (List.finRange 32).flatMap fun y =>
    (List.finRange 64).filterMap fun x => if pixel fb x y then some (x.val, y.val) else none

/-! ## Well-formedness -/

/-- `0NNN` with NNN = 0x0E0 is `00E0`, no `0NNN` (R48, R51). -/
theorem test_wellFormed_refuses_sys_0E0 : (Instr.sys 0x0E0#12).wellFormed = false := by decide

/-- `0NNN` with NNN = 0x0EE is `00EE`, no `0NNN` (R48, R51). -/
theorem test_wellFormed_refuses_sys_0EE : (Instr.sys 0x0EE#12).wellFormed = false := by decide

theorem test_wellFormed_accepts_sys_0EF : (Instr.sys 0x0EF#12).wellFormed = true := by decide

/-! ## One word per instruction, bit by bit from R49 -/

theorem test_decode_cls : decodeWord 0b0000000011100000#16 = .ok .cls := by decide
theorem test_decode_ret : decodeWord 0b0000000011101110#16 = .ok .ret := by decide
/-- 0000 nnnnnnnnnnnn -/
theorem test_decode_sys : decodeWord 0b0000000100100011#16 = .ok (.sys 0x123#12) := by decide
/-- 0001 nnnnnnnnnnnn -/
theorem test_decode_jp : decodeWord 0b0001101010111100#16 = .ok (.jp 0xABC#12) := by decide
/-- 0010 nnnnnnnnnnnn -/
theorem test_decode_call : decodeWord 0b0010001100000001#16 = .ok (.call 0x301#12) := by decide
/-- 0011 xxxx kkkkkkkk -/
theorem test_decode_seImm : decodeWord 0b0011000101000010#16 = .ok (.seImm 1 0x42#8) := by decide
/-- 0100 xxxx kkkkkkkk -/
theorem test_decode_sneImm : decodeWord 0b0100111010000001#16 = .ok (.sneImm 14 0x81#8) := by decide
/-- 0101 xxxx yyyy 0000 -/
theorem test_decode_seReg : decodeWord 0b0101000100100000#16 = .ok (.seReg 1 2) := by decide
/-- 0110 xxxx kkkkkkkk -/
theorem test_decode_ldImm : decodeWord 0b0110101001010101#16 = .ok (.ldImm 10 0x55#8) := by decide
/-- 0111 xxxx kkkkkkkk -/
theorem test_decode_addImm : decodeWord 0b0111111100000001#16 = .ok (.addImm 15 0x01#8) := by decide
/-- 1000 xxxx yyyy 0000 -/
theorem test_decode_ldReg : decodeWord 0b1000000100100000#16 = .ok (.ldReg 1 2) := by decide
/-- 1000 xxxx yyyy 0001 -/
theorem test_decode_orReg : decodeWord 0b1000111100010001#16 = .ok (.orReg 15 1) := by decide
/-- 1000 xxxx yyyy 0010 -/
theorem test_decode_andReg : decodeWord 0b1000001101000010#16 = .ok (.andReg 3 4) := by decide
/-- 1000 xxxx yyyy 0011 -/
theorem test_decode_xorReg : decodeWord 0b1000010101100011#16 = .ok (.xorReg 5 6) := by decide
/-- 1000 xxxx yyyy 0100 -/
theorem test_decode_addReg : decodeWord 0b1000000111110100#16 = .ok (.addReg 1 15) := by decide
/-- 1000 xxxx yyyy 0101 -/
theorem test_decode_subReg : decodeWord 0b1000011110000101#16 = .ok (.subReg 7 8) := by decide
/-- 1000 xxxx yyyy 0110 -/
theorem test_decode_shr : decodeWord 0b1000100110100110#16 = .ok (.shr 9 10) := by decide
/-- 1000 xxxx yyyy 0111 -/
theorem test_decode_subn : decodeWord 0b1000101111000111#16 = .ok (.subn 11 12) := by decide
/-- 1000 xxxx yyyy 1110 -/
theorem test_decode_shl : decodeWord 0b1000110111101110#16 = .ok (.shl 13 14) := by decide
/-- 1001 xxxx yyyy 0000 -/
theorem test_decode_sneReg : decodeWord 0b1001001000110000#16 = .ok (.sneReg 2 3) := by decide
/-- 1010 nnnnnnnnnnnn -/
theorem test_decode_ldI : decodeWord 0b1010001100000000#16 = .ok (.ldI 0x300#12) := by decide
/-- 1011 nnnnnnnnnnnn -/
theorem test_decode_jpV0 : decodeWord 0b1011111111111110#16 = .ok (.jpV0 0xFFE#12) := by decide
/-- 1100 xxxx kkkkkkkk -/
theorem test_decode_rnd : decodeWord 0b1100000100001111#16 = .ok (.rnd 1 0x0F#8) := by decide
/-- 1101 xxxx yyyy nnnn -/
theorem test_decode_drw : decodeWord 0b1101000100101111#16 = .ok (.drw 1 2 15) := by decide
/-- 1110 xxxx 1001 1110 -/
theorem test_decode_skp : decodeWord 0b1110000110011110#16 = .ok (.skp 1) := by decide
/-- 1110 xxxx 1010 0001 -/
theorem test_decode_sknp : decodeWord 0b1110111110100001#16 = .ok (.sknp 15) := by decide
/-- 1111 xxxx 0000 0111 -/
theorem test_decode_ldVxDt : decodeWord 0b1111001000000111#16 = .ok (.ldVxDt 2) := by decide
/-- 1111 xxxx 0000 1010 -/
theorem test_decode_waitKey : decodeWord 0b1111000100001010#16 = .ok (.waitKey 1) := by decide
/-- 1111 xxxx 0001 0101 -/
theorem test_decode_ldDtVx : decodeWord 0b1111000000010101#16 = .ok (.ldDtVx 0) := by decide
/-- 1111 xxxx 0001 1000 -/
theorem test_decode_ldStVx : decodeWord 0b1111010000011000#16 = .ok (.ldStVx 4) := by decide
/-- 1111 xxxx 0001 1110 -/
theorem test_decode_addI : decodeWord 0b1111111100011110#16 = .ok (.addI 15) := by decide
/-- 1111 xxxx 0010 1001 -/
theorem test_decode_ldF : decodeWord 0b1111010100101001#16 = .ok (.ldF 5) := by decide
/-- 1111 xxxx 0011 0011 -/
theorem test_decode_bcd : decodeWord 0b1111011000110011#16 = .ok (.bcd 6) := by decide
/-- 1111 xxxx 0101 0101 -/
theorem test_decode_storeRegs : decodeWord 0b1111111101010101#16 = .ok (.storeRegs 15) := by decide
/-- 1111 xxxx 0110 0101 -/
theorem test_decode_loadRegs : decodeWord 0b1111001001100101#16 = .ok (.loadRegs 2) := by decide

/-- The unknown words of vector X1, each under the name of its set in R50. -/
theorem test_decode_rejects_by_name :
    decodeWord 0x5001#16 = .error (.unknown5XYN 0x5001#16) ∧ decodeWord 0x8008#16 = .error (.unknown8XYN 0x8008#16) ∧
    decodeWord 0x800F#16 = .error (.unknown8XYN 0x800F#16) ∧ decodeWord 0x900F#16 = .error (.unknown9XYN 0x900F#16) ∧
    decodeWord 0xE000#16 = .error (.unknownEXNN 0xE000#16) ∧ decodeWord 0xE09F#16 = .error (.unknownEXNN 0xE09F#16) ∧
    decodeWord 0xF000#16 = .error (.unknownFXNN 0xF000#16) ∧ decodeWord 0xFFFF#16 = .error (.unknownFXNN 0xFFFF#16) := by
  decide

/-- X2: `0x00E1` is `0NNN`. -/
theorem test_decode_00E1_is_sys : decodeWord 0x00E1#16 = .ok (.sys 0x0E1#12) := by decide

/-- R44: an instruction is two bytes. -/
theorem test_decode_one_byte_is_truncated : decode [0x6A#8] = .error .truncated := by decide

/-- F1: the byte at the lower address is the most significant; the rest of the bytes is handed back. -/
theorem test_decode_bytes_big_endian : decode [0x6A#8, 0x55#8, 0x12#8] = .ok (.ldImm 10 0x55#8, [0x12#8]) := by decide

/-- The table's row of `DXYN`: mask 0xF000, match 0xD000, 16 bits. -/
theorem test_decodeTableWord_drw : decodeTableWord 16 0xD123 = some (.drw 1 2 3) := by decide

/-- The rows of R49 select what its dispatch order says, and no row selects an unknown word. -/
theorem test_firstRow :
    firstRow 0x00E0#16 = some (0xFFFF#16, 0x00E0#16) ∧ firstRow 0x00E1#16 = some (0xF000#16, 0x0000#16) ∧
    firstRow 0x5001#16 = none := by decide

/-! ## The cycle -/

/-- F1 -/
theorem test_fetch_big_endian : (cycle (at200 0x6A55)).getV 10 = 0x55#8 ∧ (cycle (at200 0x6A55)).pc = 0x202#16 := by
  decide

/-- F2 -/
theorem test_pc_wraps : (cycle (at' 0xFFE#16 0x6A55)).getV 10 = 0x55#8 ∧ (cycle (at' 0xFFE#16 0x6A55)).pc = 0x000#16 := by
  decide

/-- X1 with the word 0x5001: the display is full, the flag set, PC on, DT one lower, VF kept (W14 too). -/
theorem test_unknown_word :
    let t := cycle { regs [(15, 0x03#8)] (at200 0x5001) with dt := 2#8 }
    (∀ y x, pixel t.fb x y = true) ∧ t.diag = 0b001#3 ∧ t.pc = 0x202#16 ∧ t.dt = 1#8 ∧ t.getV 15 = 0x03#8 := by
  decide

/-- W13, the second and third of its cycles: (ST, TONE) = (1, on) goes to (0, on), and (0, on) to (0, off). -/
theorem test_tone_is_latched_before_the_decay :
    let t := cycle { at200 0x0000 with st := 1#8, tone := true }
    let u := cycle { at200 0x0000 with st := 0#8, tone := true }
    (t.st = 0#8 ∧ t.tone = true) ∧ (u.st = 0#8 ∧ u.tone = false) := by decide

/-! ## Control transfer -/

/-- J3 -/
theorem test_sys_00EF : cycle (at200 0x00EF) = { at200 0x00EF with pc := 0x202#16, draws := 1 } := by decide

/-- J4 -/
theorem test_jp : (cycle (at200 0x1ABC)).pc = 0xABC#16 := by decide

/-- J8: the advance wraps before the push. -/
theorem test_call :
    let t := cycle (at' 0xFFE#16 0x2FFF)
    t.getStack 0 = 0x0000#16 ∧ t.sp = 1 ∧ t.pc = 0xFFF#16 := by decide

/-- J9 -/
theorem test_call_overflow :
    let t := cycle { at200 0x2204 with sp := 16, stack := Vector.replicate 16 0x206#16 }
    t.sp = 16 ∧ t.pc = 0x202#16 ∧ t.diag = 0b010#3 ∧ t.stack = Vector.replicate 16 0x206#16 := by decide

/-- J10 -/
theorem test_ret :
    let s := at' 0x300#16 0x00EE
    let t := cycle { s with sp := 1, stack := s.stack.set 0 0x202#16 }
    t.pc = 0x202#16 ∧ t.sp = 0 ∧ t.getStack 0 = 0x202#16 := by decide

/-- J11 -/
theorem test_ret_underflow :
    let t := cycle (at200 0x00EE)
    t.pc = 0x202#16 ∧ t.sp = 0 ∧ t.diag = 0b100#3 := by decide

/-- J13 -/
theorem test_jpV0_wraps : (cycle (regs [(0, 0xFF#8)] (at200 0xBFFF))).pc = 0x0FE#16 := by decide

/-! ## Skips -/

/-- K1, K2 -/
theorem test_seImm :
    (cycle (regs [(1, 0x42#8)] (at200 0x3142))).pc = 0x204#16 ∧
    (cycle (regs [(1, 0x43#8)] (at200 0x3142))).pc = 0x202#16 := by decide

/-- K12: the second advance wraps. -/
theorem test_seImm_wraps : (cycle (at' 0xFFE#16 0x3000)).pc = 0x002#16 := by decide

/-- K3, K4 -/
theorem test_sneImm :
    (cycle (regs [(1, 0x42#8)] (at200 0x4142))).pc = 0x202#16 ∧
    (cycle (regs [(1, 0x43#8)] (at200 0x4142))).pc = 0x204#16 := by decide

/-- K5, K6 -/
theorem test_seReg :
    (cycle (regs [(1, 7#8), (2, 7#8)] (at200 0x5120))).pc = 0x204#16 ∧
    (cycle (regs [(1, 7#8), (2, 8#8)] (at200 0x5120))).pc = 0x202#16 := by decide

/-- K8, K9 -/
theorem test_sneReg :
    (cycle (regs [(1, 7#8), (2, 7#8)] (at200 0x9120))).pc = 0x202#16 ∧
    (cycle (regs [(1, 7#8), (2, 8#8)] (at200 0x9120))).pc = 0x204#16 := by decide

/-! ## Loads, arithmetic, logic, shifts, random -/

/-- A2 -/
theorem test_ldImm_into_VF : (cycle (at200 0x6FAB)).getV 15 = 0xAB#8 := by decide

/-- A3 -/
theorem test_addImm_no_flag :
    let t := cycle (regs [(1, 0x01#8), (15, 0x77#8)] (at200 0x71FF))
    t.getV 1 = 0x00#8 ∧ t.getV 15 = 0x77#8 := by decide

/-- A6 -/
theorem test_addImm_VF : (cycle (regs [(15, 0xFF#8)] (at200 0x7F01))).getV 15 = 0x00#8 := by decide

/-- A7 -/
theorem test_ldReg :
    let t := cycle (regs [(1, 0x11#8), (2, 0x22#8), (15, 0x77#8)] (at200 0x8120))
    t.getV 1 = 0x22#8 ∧ t.getV 2 = 0x22#8 ∧ t.getV 15 = 0x77#8 := by decide

/-- A8 -/
theorem test_orReg :
    let t := cycle (regs [(1, 0x5A#8), (2, 0x0F#8), (15, 0x77#8)] (at200 0x8121))
    t.getV 1 = 0x5F#8 ∧ t.getV 15 = 0x77#8 := by decide

/-- A9 -/
theorem test_andReg :
    let t := cycle (regs [(1, 0x5A#8), (2, 0x0F#8), (15, 0x77#8)] (at200 0x8122))
    t.getV 1 = 0x0A#8 ∧ t.getV 15 = 0x77#8 := by decide

/-- A10 -/
theorem test_xorReg :
    let t := cycle (regs [(1, 0x5A#8), (2, 0x0F#8), (15, 0x77#8)] (at200 0x8123))
    t.getV 1 = 0x55#8 ∧ t.getV 15 = 0x77#8 := by decide

/-- A15: 255 is no carry. -/
theorem test_addReg_255 :
    let t := cycle (regs [(1, 0x80#8), (2, 0x7F#8)] (at200 0x8124))
    t.getV 1 = 0xFF#8 ∧ t.getV 15 = 0x00#8 := by decide

/-- A17, A19: VF as the second operand, and VF as the destination. -/
theorem test_addReg_VF :
    (cycle (regs [(1, 0xFF#8), (15, 0x01#8)] (at200 0x81F4))).getV 15 = 0x01#8 ∧
    (cycle (regs [(15, 0xF0#8), (1, 0x20#8)] (at200 0x8F14))).getV 15 = 0x10#8 := by decide

/-- A22: equal operands do not borrow. -/
theorem test_subReg_equal :
    let t := cycle (regs [(1, 0x10#8), (2, 0x10#8)] (at200 0x8125))
    t.getV 1 = 0x00#8 ∧ t.getV 15 = 0x01#8 := by decide

/-- A28, A29 -/
theorem test_subReg_VF :
    (cycle (regs [(1, 0x03#8), (15, 0x05#8)] (at200 0x81F5))).getV 1 = 0xFE#8 ∧
    (cycle (regs [(15, 0x05#8), (1, 0x03#8)] (at200 0x8F15))).getV 15 = 0x02#8 := by decide

/-- A32: VY is ignored. -/
theorem test_shr :
    let t := cycle (regs [(1, 0x05#8), (2, 0xAA#8)] (at200 0x8126))
    t.getV 1 = 0x02#8 ∧ t.getV 2 = 0xAA#8 ∧ t.getV 15 = 0x01#8 := by decide

/-- A37 -/
theorem test_shr_VF : (cycle (regs [(15, 0x02#8)] (at200 0x8F26))).getV 15 = 0x01#8 := by decide

/-- A39 -/
theorem test_subn_borrow :
    let t := cycle (regs [(1, 0x11#8), (2, 0x10#8)] (at200 0x8127))
    t.getV 1 = 0xFF#8 ∧ t.getV 15 = 0x00#8 := by decide

/-- A45 -/
theorem test_subn_VF : (cycle (regs [(15, 0x03#8), (1, 0x05#8)] (at200 0x8F17))).getV 15 = 0x02#8 := by decide

/-- A48 -/
theorem test_shl :
    let t := cycle (regs [(1, 0x81#8), (2, 0xAA#8)] (at200 0x812E))
    t.getV 1 = 0x02#8 ∧ t.getV 2 = 0xAA#8 ∧ t.getV 15 = 0x01#8 := by decide

/-- A52 -/
theorem test_shl_VF : (cycle (regs [(15, 0xC0#8)] (at200 0x8F2E))).getV 15 = 0x80#8 := by decide

/-- A54, A55: the draw given. -/
theorem test_rnd_masks :
    ((at200 0xC10F).maskedDraw 0xA7#8 1 0x0F#8).getV 1 = 0x07#8 ∧
    ((at200 0xC1FF).maskedDraw 0x5C#8 1 0xFF#8).getV 1 = 0x5C#8 := by decide

/-- A56: a zero mask gives zero, whatever the draw. -/
theorem test_rnd_zero_mask : (cycle (regs [(1, 0x99#8)] (at200 0xC100))).getV 1 = 0x00#8 := by
  show Config.rnd 0 &&& 0x00#8 = 0x00#8
  simp

/-! ## Index register and memory -/

/-- M1 -/
theorem test_ldI : (cycle (at200 0xAFFF)).i = 0xFFF#16 := by decide

/-- M3, M4 -/
theorem test_addI_wraps :
    let t := cycle (regs [(1, 0x01#8)] { at200 0xF11E with i := 0xFFF#16 })
    t.i = 0x000#16 ∧ t.getV 15 = 0x00#8 ∧
    (cycle (regs [(1, 0xFF#8)] { at200 0xF11E with i := 0xF80#16 })).i = 0x07F#16 := by decide

/-- M6, M7: the whole byte is multiplied. -/
theorem test_ldF :
    (cycle (regs [(1, 0x0F#8)] (at200 0xF129))).i = 0x04B#16 ∧
    (cycle (regs [(1, 0xFF#8)] (at200 0xF129))).i = 0x4FB#16 := by decide

/-- M12 -/
theorem test_bcd_199 :
    let t := cycle (regs [(1, 0xC7#8)] { at200 0xF133 with i := 0x300#16 })
    t.memRead 0x300 = 1#8 ∧ t.memRead 0x301 = 9#8 ∧ t.memRead 0x302 = 9#8 ∧ t.i = 0x300#16 := by decide

/-- M14 -/
theorem test_bcd_wraps_into_the_font :
    let t := cycle (regs [(1, 0x7B#8)] { at200 0xF133 with i := 0xFFE#16 })
    t.memRead 0xFFE = 1#8 ∧ t.memRead 0xFFF = 2#8 ∧ t.memRead 0x000 = 3#8 := by decide

/-- M16 -/
theorem test_storeRegs :
    let t := cycle (regs [(0, 0x10#8), (1, 0x11#8), (2, 0x12#8), (3, 0x13#8), (4, 0x14#8)]
      (loadBytes 0x400 (List.replicate 18 0xEE#8) { at200 0xF355 with i := 0x400#16 }))
    t.memRead 0x400 = 0x10#8 ∧ t.memRead 0x403 = 0x13#8 ∧ t.memRead 0x404 = 0xEE#8 ∧ t.memRead 0x3FF = 0x00#8 ∧
    t.i = 0x400#16 := by decide

/-- M18 -/
theorem test_storeRegs_wraps :
    let t := cycle (regs [(0, 0x10#8), (1, 0x11#8), (2, 0x12#8), (3, 0x13#8)] { at200 0xF355 with i := 0xFFE#16 })
    t.memRead 0xFFE = 0x10#8 ∧ t.memRead 0xFFF = 0x11#8 ∧ t.memRead 0x000 = 0x12#8 ∧ t.memRead 0x001 = 0x13#8 := by
  decide

/-- M20 -/
theorem test_loadRegs :
    let t := cycle (regs [(2, 0xCC#8), (3, 0xCC#8)]
      (loadBytes 0x400 [0xA0#8, 0xA1#8, 0xA2#8, 0xA3#8] { at200 0xF265 with i := 0x400#16 }))
    t.getV 0 = 0xA0#8 ∧ t.getV 1 = 0xA1#8 ∧ t.getV 2 = 0xA2#8 ∧ t.getV 3 = 0xCC#8 ∧ t.i = 0x400#16 := by decide

/-- M22, with the two font bytes read from the parameter. -/
theorem test_loadRegs_wraps :
    let s : State := loadBytes 0xFFE [0x11#8, 0x22#8] { at200 0xF365 with i := 0xFFE#16 }
    (cycle s).getV 0 = 0x11#8 ∧ (cycle s).getV 1 = 0x22#8 ∧ (cycle s).getV 2 = s.mem.font[0] ∧
    (cycle s).getV 3 = s.mem.font[1] := by decide

/-! ## Display -/

/-- G1 -/
theorem test_cls :
    let t := cycle (regs [(15, 0x07#8)] { at200 0x00E0 with fb := filled true })
    lit t.fb = [] ∧ t.getV 15 = 0x07#8 := by decide

/-- G8: the rows wrap. -/
theorem test_drw_wraps :
    let t := cycle (regs [(2, 0x1E#8)] (loadBytes 0x300 [0xC0#8, 0x30#8, 0x0C#8] { at200 0xD123 with i := 0x300#16 }))
    lit t.fb = [(4, 0), (5, 0), (0, 30), (1, 30), (2, 31), (3, 31)] ∧ t.getV 15 = 0x00#8 := by decide

/-- G13: VY is VF, read before it is written; the cell goes off and collides. -/
theorem test_drw_VF_as_row :
    let t := cycle (regs [(1, 0x02#8), (15, 0x09#8)]
      (loadBytes 0x300 [0x80#8] { at200 0xD1F1 with i := 0x300#16, fb := setPixel (filled false) 2 9 true }))
    lit t.fb = [] ∧ t.getV 15 = 0x01#8 := by decide

/-! ## Keys -/

/-- H3, H4 -/
theorem test_skp :
    (cycle (regs [(1, 0x05#8)] (setKey 4 true (setKey 6 true (at200 0xE19E))))).pc = 0x202#16 ∧
    (cycle (regs [(1, 0x1A#8)] (setKey 10 true (at200 0xE19E)))).pc = 0x204#16 := by decide

/-- H3, H4 -/
theorem test_sknp :
    (cycle (regs [(1, 0x05#8)] (setKey 4 true (setKey 6 true (at200 0xE1A1))))).pc = 0x204#16 ∧
    (cycle (regs [(1, 0x1A#8)] (setKey 10 true (at200 0xE1A1)))).pc = 0x202#16 := by decide

/-- H1, H3: another key does not end the wait. -/
theorem test_waitKey :
    let t := cycle (regs [(1, 0x05#8)] (setKey 5 true (at200 0xF10A)))
    t.pc = 0x202#16 ∧ t.getV 1 = 0x05#8 ∧
    (cycle (regs [(1, 0x05#8)] (setKey 4 true (setKey 6 true (at200 0xF10A))))).pc = 0x200#16 := by decide

/-- T8, the last sentence: at 0xFFE with the key up PC stays. -/
theorem test_waitKey_at_the_top : (cycle (at' 0xFFE#16 0xF10A)).pc = 0xFFE#16 := by decide

/-! ## Timers -/

/-- W10 -/
theorem test_ldVxDt :
    let t := cycle { at200 0xF107 with dt := 66#8 }
    t.getV 1 = 0x42#8 ∧ t.dt = 65#8 := by decide

/-- W2, W5 -/
theorem test_ldDtVx :
    (cycle (regs [(1, 1#8)] (at200 0xF115))).dt = 0#8 ∧ (cycle (regs [(1, 255#8)] (at200 0xF115))).dt = 254#8 := by decide

/-- W6, W7 -/
theorem test_ldStVx :
    let t := cycle (at200 0xF118)
    let u := cycle (regs [(1, 1#8)] (at200 0xF118))
    (t.st = 0#8 ∧ t.tone = false) ∧ (u.st = 0#8 ∧ u.tone = true) := by decide

/-! ## The host's operations -/

/-- O5 -/
theorem test_loadProgram_odd_length :
    let t := (loadProgram [0x60#8] State.reset).2
    t.fetchWord = 0x6000#16 ∧ (loadProgram [0x60#8] State.reset).1 = .ok := by decide

/-- O7, with an empty program (O2). -/
theorem test_loadProgram_resets :
    (loadProgram [] (setKey 2 true (regs [(3, 9#8)] { State.reset with diag := 0b101#3 }))).2 = State.reset := by decide

/-- O6 -/
theorem test_setKey : (setKey 15 true State.reset).getKey 15 = true ∧ (setKey 15 true State.reset).getKey 14 = false := by
  decide

/-! ## Witnesses: states and operands that meet the hypotheses of the statements -/

/-- For EncodedInstructionDecodesToItself: the largest operands, and `0NNN` beside the two words it gives up. -/
theorem test_witness_wellFormed :
    (Instr.drw 15 15 15).wellFormed = true ∧ (Instr.sys 0x0EF#12).wellFormed = true ∧
    (Instr.sys 0x0E1#12).wellFormed = true ∧ (Instr.sys 0xFFF#12).wellFormed = true := by decide

/-- For DecodedWordIsTheEncodingOfItsInstruction and DecoderSelectsTheFirstMatchingRow, both clauses. -/
theorem test_witness_decoded_and_rejected :
    decodeWord 0xFF65#16 = .ok (.loadRegs 15) ∧ decodeWord 0x0000#16 = .ok (.sys 0x000#12) ∧
    decodeWord 0xFF66#16 = .error (.unknownFXNN 0xFF66#16) := by decide

/-- For UnknownWordsAreExactlyTheFiveSets: each set at a boundary word, and a word next to it that is in none. -/
theorem test_witness_unknown_sets :
    decodeWord 0x5FFF#16 = .error (.unknown5XYN 0x5FFF#16) ∧ decodeWord 0x5FF0#16 = .ok (.seReg 15 15) ∧
    decodeWord 0x8008#16 = .error (.unknown8XYN 0x8008#16) ∧ decodeWord 0x8007#16 = .ok (.subn 0 0) ∧
    decodeWord 0x9001#16 = .error (.unknown9XYN 0x9001#16) ∧ decodeWord 0x9000#16 = .ok (.sneReg 0 0) ∧
    decodeWord 0xEFA2#16 = .error (.unknownEXNN 0xEFA2#16) ∧ decodeWord 0xEFA1#16 = .ok (.sknp 15) ∧
    decodeWord 0xF054#16 = .error (.unknownFXNN 0xF054#16) ∧ decodeWord 0xF055#16 = .ok (.storeRegs 0) := by decide

/-- For EveryCycleKeepsTheInvariant and HostOperationsKeepTheInvariant: a state of the invariant with PC, I, SP and a
stack slot at their largest values and a byte listed. -/
def topState : State :=
  { at' 0xFFF#16 0x2FFF with i := 0xFFF#16, sp := 16, stack := Vector.replicate 16 0xFFF#16 }

theorem test_witness_inv : Inv State.reset ∧ Inv topState ∧ topState.mem.cells ≠ [] := by decide

theorem test_witness_inv_step : Inv topState ∧ step topState = .next (cycle topState) :=
  ⟨by decide, step_eq_cycle _⟩

/-- For CanonicalMemoriesWithEqualBytesAreEqual: the same two bytes written in two orders. -/
theorem test_witness_canonical_memories :
    let m := (State.reset.mem.setByte 0x300 1#8).setByte 0xFFF 2#8
    let m' := (State.reset.mem.setByte 0xFFF 2#8).setByte 0x300 1#8
    m.wf = true ∧ m'.wf = true ∧ m.font = m'.font ∧ (∀ a, a < 4096 → m.byteAt a = m'.byteAt a) ∧ m.cells ≠ [] := by
  refine ⟨by decide, by decide, rfl, fun a _ => ?_, by decide⟩
  rw [show (State.reset.mem.setByte 0x300 1#8).setByte 0xFFF 2#8 =
    (State.reset.mem.setByte 0xFFF 2#8).setByte 0x300 1#8 by decide]

/-- For StepRunsTheDecodedInstruction. -/
theorem test_witness_step_runs :
    decodeWord (at200 0x8124).fetchWord = .ok (.addReg 1 2) ∧
    exec (.addReg 1 2) (at200 0x8124).advancePc = .next (after (.addReg 1 2) (at200 0x8124).advancePc) :=
  ⟨by decide, rfl⟩

/-- For UnknownOpcodeFillsTheDisplayAndGoesOn, at a PC where the fetch wraps. -/
theorem test_witness_unknown : ∃ r, decodeWord (at' 0xFFF#16 0x5001).fetchWord = .error r :=
  ⟨.unknown5XYN 0x5001#16, by decide⟩

/-- For TimersDecayOncePerCycle, both forms of its hypothesis. -/
theorem test_witness_timers :
    (∃ u, decodeWord (at200 0xF115).fetchWord = .ok (.ldDtVx 1) ∧ exec (.ldDtVx 1) (at200 0xF115).advancePc = .next u) ∧
    decodeWord (at200 0x5001).fetchWord = .error (.unknown5XYN 0x5001#16) :=
  ⟨⟨_, by decide, rfl⟩, by decide⟩

/-- For the statements whose hypothesis is that a step answers a next state: a step from each state does, in particular
where the clauses of TimersMoveOnlyByDecayOrTheirOwnLoad, DiagFlagsAreStickyAndSetByTheirConditions and
ProgramCounterAfterEveryKindOfCycle meet. -/
theorem test_witness_steps (s : State) : ∃ t, step s = .next t := ⟨_, step_eq_cycle s⟩

/-- The instruction of each clause of those statements is what some state fetches. -/
theorem test_witness_clauses :
    ∀ p ∈ ([(0x00EE, .ret), (0x1200, .jp 0x200#12), (0x2FFF, .call 0xFFF#12), (0xB000, .jpV0 0x000#12)] ++
      [(0x3142, .seImm 1 0x42#8), (0x4142, .sneImm 1 0x42#8), (0x5120, .seReg 1 2), (0x9120, .sneReg 1 2)] ++
      [(0xE19E, .skp 1), (0xE1A1, .sknp 1), (0xF10A, .waitKey 1), (0xF115, .ldDtVx 1), (0xF118, .ldStVx 1)] ++
      [(0x6A55, .ldImm 10 0x55#8)] : List (Nat × Instr)),
      decodeWord (at200 p.1).fetchWord = .ok p.2 := by decide

/-- For the two conditions of DiagFlagsAreStickyAndSetByTheirConditions, with the stack pointer at its two ends. -/
theorem test_witness_stack_conditions :
    decodeWord topState.fetchWord = .ok (.call 0xFFF#12) ∧ topState.sp.val = 16 ∧
    decodeWord (at200 0x00EE).fetchWord = .ok .ret ∧ (at200 0x00EE).sp.val = 0 := by decide

/-- For HandlersWriteOnlyWhatTheAccessMatrixAllows: a storing, a loading, a flag and a drawing instruction. -/
theorem test_witness_handlers :
    (∃ t, exec (.storeRegs 15) topState = .next t) ∧ (∃ t, exec (.loadRegs 15) topState = .next t) ∧
    (∃ t, exec (.addReg 15 15) topState = .next t) ∧ (∃ t, exec (.drw 15 15 15) topState = .next t) :=
  ⟨⟨_, rfl⟩, ⟨_, rfl⟩, ⟨_, rfl⟩, ⟨_, rfl⟩⟩

/-- For EachStoreChangesOnlyByItsOwnInstructions and the three statements about what is not read: a cycle of `6A55`
meets all their hypotheses at once. -/
theorem test_witness_other_word :
    decodeWord (at200 0x6A55).fetchWord = .ok (.ldImm 10 0x55#8) ∧
    (∀ i, decodeWord (at200 0x6A55).fetchWord = .ok i → readsKeys i = false ∧ readsDraw i = false) ∧
    (∀ r, decodeWord (at200 0x6A55).fetchWord ≠ .error r) ∧ (∃ t, step (at200 0x6A55) = .next t) := by
  have h : decodeWord (at200 0x6A55).fetchWord = .ok (.ldImm 10 0x55#8) := by decide
  refine ⟨h, fun i hi => ?_, fun r hr => ?_, ⟨_, step_eq_cycle _⟩⟩
  · rw [h] at hi
    cases hi
    exact ⟨rfl, rfl⟩
  · rw [h] at hr
    cases hr

/-- For SysDoesNothing: the values next to the two it gives up, and the ends of the range. -/
theorem test_witness_sys :
    (∀ w ∈ [0x000, 0x0DF, 0x0E1, 0x0ED, 0x0EF, 0xFFF], w < 4096 ∧ w ≠ 0x0E0 ∧ w ≠ 0x0EE) ∧
    decodeWord (at200 0x00EF).fetchWord = .ok (.sys 0x0EF#12) := by decide

/-- For CallPushesAndJumpsOrReportsOverflow and ReturnPopsOrReportsUnderflow, each clause at the ends of its range. -/
theorem test_witness_stack_pointer :
    State.reset.sp.val < 16 ∧ ({ State.reset with sp := 15 } : State).sp.val < 16 ∧ topState.sp.val = 16 ∧
    0 < ({ State.reset with sp := 1 } : State).sp.val ∧ 0 < topState.sp.val ∧ State.reset.sp.val = 0 := by decide

/-- For CallThenReturnComesBack: the instance of T1 item 4 (0x2300 at 0x200, 0x00EE at 0x300). -/
theorem test_witness_call_then_return :
    let s := loadBytes 0x300 [0x00#8, 0xEE#8] (at200 0x2300)
    decodeWord s.fetchWord = .ok (.call 0x300#12) ∧ s.sp.val < 16 ∧ step s = .next (cycle s) ∧
    decodeWord (cycle s).fetchWord = .ok .ret :=
  ⟨by decide, by decide, step_eq_cycle _, by decide⟩

/-- For the clauses of the flag statements with VX other than VF, and for FlagAndResultTogetherAreExact: 0xF0 + 0x20
carries, 0x80 + 0x7F does not. -/
theorem test_witness_flag_instructions :
    let s := regs [(1, 0xF0#8), (2, 0x20#8)] State.reset
    let s' := regs [(1, 0x80#8), (2, 0x7F#8)] State.reset
    (1 : Reg) ≠ 15 ∧ 255 < (s.getV 1).toNat + (s.getV 2).toNat ∧ ¬ 255 < (s'.getV 1).toNat + (s'.getV 2).toNat ∧
    (∃ t, exec (.addReg 1 2) s = .next t) ∧ (∃ t, exec (.subReg 1 2) s = .next t) ∧
    (∃ t, exec (.subn 1 2) s = .next t) ∧ (∃ t, exec (.shr 1 2) s = .next t) ∧ ∃ t, exec (.shl 1 2) s = .next t :=
  ⟨by decide, by decide, by decide, ⟨_, rfl⟩, ⟨_, rfl⟩, ⟨_, rfl⟩, ⟨_, rfl⟩, ⟨_, rfl⟩⟩

/-- For StoreThenLoadRestoresTheRegisters, at the top of memory. -/
theorem test_witness_store_then_load :
    ∃ t u, exec (.storeRegs 3) topState = .next t ∧
      exec (.loadRegs 3) { t with v := Vector.replicate 16 0xCC#8 } = .next u :=
  ⟨_, _, rfl, rfl⟩

/-- For StoredBytesAreFetchedByTheNextCycle: the store of the self-modification example of T6, moved to 0x200. -/
theorem test_witness_self_modification :
    let s := regs [(0, 0x12#8), (1, 0x08#8)] { at200 0xF155 with i := 0x202#16 }
    decodeWord s.fetchWord = .ok (.storeRegs 1) ∧ step s = .next (cycle s) ∧ (1 : Reg).val = (0 : Reg).val + 1 ∧
    (1 : Reg).val ≤ (1 : Reg).val ∧ (s.pc.toNat + 2) % 4096 = s.effAddr 0 ∧ (cycle s).fetchWord = 0x1208#16 :=
  ⟨by decide, step_eq_cycle _, by decide, by decide, by decide, by decide⟩

/-- A sprite byte 0xFF in memory, the cell (7, 0) on, VX and VY zero. -/
def drawState : State :=
  loadBytes 0x300 [0xFF#8] { State.reset with i := 0x300#16, fb := setPixel (filled false) 7 0 true }

/-- For DrawXorsEachSpritePixelOnce: a place under the sprite, one outside, a collision, and (on a clear framebuffer)
none. -/
theorem test_witness_draw :
    (0 < 1 ∧ 7 < 8 ∧ 7 = ((drawState.getV 1).toNat + 7) % 64 ∧ 0 = ((drawState.getV 2).toNat + 0) % 32) ∧
    (∀ row < 1, ∀ col < 8, ¬ (8 = ((drawState.getV 1).toNat + col) % 64 ∧ 0 = ((drawState.getV 2).toNat + row) % 32)) ∧
    (pixel drawState.fb 7 0 = true ∧ (drawState.memRead (drawState.i.toNat + 0)).getLsbD (7 - 7) = true) ∧
    (∀ y x, pixel State.reset.fb x y = false) := by decide

/-- For DrawingTwiceRestoresTheFramebuffer: VX and VY are not VF. -/
theorem test_witness_draw_twice :
    ∃ t u, exec (.drw 1 2 1) drawState = .next t ∧ t.getV 1 = drawState.getV 1 ∧ t.getV 2 = drawState.getV 2 ∧
      exec (.drw 1 2 1) t = .next u :=
  ⟨_, _, rfl, by decide, by decide, rfl⟩

/-- For CollisionOnClearAndOnFullScreens, both clauses. -/
theorem test_witness_clear_and_full :
    (∃ t, exec (.drw 1 2 1) drawState = .next t) ∧ (∀ y x, pixel (filled false) x y = false) ∧
    (∀ y x, pixel (filled true) x y = true) ∧ 0 < (1 : Fin 16).val ∧
    drawState.memRead (drawState.i.toNat + 0) ≠ 0x00#8 :=
  ⟨⟨_, rfl⟩, by decide, by decide, by decide, by decide⟩

/-- For KeySkipsFollowTheKey and KeyWaitRepeatsUntilItsKeyIsDown: H4 and H5, V1 = 0x1A names key A, 0xFF key F. -/
theorem test_witness_keys :
    (10 : Fin 16).val = ((regs [(1, 0x1A#8)] (at200 0xF10A)).getV 1).toNat % 16 ∧
    (15 : Fin 16).val = ((regs [(1, 0xFF#8)] (at200 0xF10A)).getV 1).toNat % 16 ∧
    decodeWord (regs [(1, 0x1A#8)] (at200 0xF10A)).fetchWord = .ok (.waitKey 1) := by decide

/-- For ParkedAndWaitingCyclesOnlyDecayTheTimers, both kinds of state; the second waits at the top of memory. -/
theorem test_witness_parked :
    (decodeWord (at200 0x1200).fetchWord = .ok (.jp 0x200#12) ∧ (at200 0x1200).pc.toNat = (0x200#12).toNat) ∧
    (decodeWord (at' 0xFFF#16 0xF10A).fetchWord = .ok (.waitKey 1) ∧ (at' 0xFFF#16 0xF10A).pc.toNat < 4096 ∧
      (at' 0xFFF#16 0xF10A).getKey (keyIndex ((at' 0xFFF#16 0xF10A).getV 1)) = false) := by decide

/-- For TimerInstructionsAndTheDecayOfTheirCycle, each of its three words. -/
theorem test_witness_timer_words :
    decodeWord (at200 0xF107).fetchWord = .ok (.ldVxDt 1) ∧ decodeWord (at200 0xF115).fetchWord = .ok (.ldDtVx 1) ∧
    decodeWord (at200 0xF118).fetchWord = .ok (.ldStVx 1) := by decide

/-- For LoadProgramCopiesOrRefuses, and the clauses of DiagFlagsAreStickyAndSetByTheirConditions about `load_program`:
O2, O3 and O4. -/
theorem test_witness_program_lengths :
    ([] : List Byte).length ≤ 3584 ∧ (List.replicate 3584 0x60#8).length ≤ 3584 ∧
    3584 < (List.replicate 3585 0x60#8).length := by
  simp only [List.length_nil, List.length_replicate]
  decide

/-- For SetKeyAndTheObservers: the last cell. -/
theorem test_witness_last_cell : (2047 : Fin 2048).val = (31 : Fin 32).val * 64 + (63 : Fin 64).val := by decide

end Sys2Proof.Tests
end

/-! ## Only CXNN reads the draw

A run with another draw number is the same run seen through `State.withDraws`: every operation of the handlers commutes
with it, only `execRnd` does not, and the end of the cycle raises both numbers by one. -/

namespace Sys2Proof.Machine

open Sys2Proof.Safety

/-- The state with the number of its next draw replaced, all else kept (R6; log entry 2). -/
def State.withDraws (s : State) (n : Nat) : State := { s with draws := n }

/-! ### The operations of the handlers -/

@[simp] theorem State.fetchWord_withDraws (s : State) (n : Nat) : (s.withDraws n).fetchWord = s.fetchWord := rfl

@[simp] theorem State.advancePc_withDraws (s : State) (n : Nat) :
    (s.withDraws n).advancePc = s.advancePc.withDraws n := rfl

theorem State.skipIf_withDraws (s : State) (n : Nat) (taken : Bool) :
    (s.withDraws n).skipIf taken = (s.skipIf taken).withDraws n := by cases taken <;> rfl

theorem State.pop_withDraws (s : State) (n : Nat) : (s.withDraws n).pop = s.pop.withDraws n := by
  rw [State.pop, State.pop, apply_dite (State.withDraws · n)]
  rfl

theorem State.pushAndJump_withDraws (s : State) (n : Nat) (target : Word) :
    (s.withDraws n).pushAndJump target = (s.pushAndJump target).withDraws n := by
  rw [State.pushAndJump, State.pushAndJump, apply_dite (State.withDraws · n)]
  rfl

theorem storeList_withDraws (latched : State) (ks : List Nat) (s : State) (n : Nat) :
    storeList (latched.withDraws n) ks (s.withDraws n) = (storeList latched ks s).withDraws n :=
  List.foldl_hom (State.withDraws · n) fun _ _ => rfl

theorem loadList_withDraws (source : State) (ks : List Nat) (s : State) (n : Nat) :
    loadList (source.withDraws n) ks (s.withDraws n) = (loadList source ks s).withDraws n :=
  List.foldl_hom (State.withDraws · n) fun _ _ => rfl

/-! ### The end of the cycle -/

@[simp] theorem endCycle_withDraws (s : State) (n : Nat) :
    endCycle (s.withDraws n) = (endCycle s).withDraws (n + 1) := rfl

@[simp] theorem unknownCycle_withDraws (s : State) (n : Nat) :
    unknownCycle (s.withDraws n) = (unknownCycle s).withDraws (n + 1) := rfl

/-! ### The handlers and the step -/

/-- A handler that does not read the draw does the same whichever draw it is given. The skips, the key-wait, the stack
and the loops of `FX55` and `FX65` branch or iterate; every other handler is one update, which commutes by itself. -/
theorem after_withDraws {i : Instr} (hi : readsDraw i = false) (s : State) (n : Nat) :
    after i (s.withDraws n) = (after i s).withDraws n := by
  cases i with
  | rnd x nn => simp [readsDraw] at hi
  | ret => exact s.pop_withDraws n
  | call nnn => exact s.pushAndJump_withDraws n _
  | seImm x nn => exact s.skipIf_withDraws n _
  | sneImm x nn => exact s.skipIf_withDraws n _
  | seReg x y => exact s.skipIf_withDraws n _
  | sneReg x y => exact s.skipIf_withDraws n _
  | skp x => exact s.skipIf_withDraws n _
  | sknp x => exact s.skipIf_withDraws n _
  | waitKey x => exact (apply_ite (State.withDraws · n) (s.keyDown x = true)
      (s.rollBackPc.setV x (s.getV x)).advancePc s.rollBackPc).symm
  | storeRegs x => exact storeList_withDraws s _ s n
  | loadRegs x => exact loadList_withDraws s _ s n
  | _ => rfl

/-- Settles O21: the two runs fetch the same word, and both kinds of cycle commute with the change of the draw. -/
theorem drawIsReadOnlyByTheRandomInstruction : Obligations.DrawIsReadOnlyByTheRandomInstruction := by
  intro s t n hread hstep
  change step (s.withDraws n) = .next (t.withDraws (n + 1))
  have hfetch : decodeWord (s.withDraws n).fetchWord = decodeWord s.fetchWord := by rw [State.fetchWord_withDraws]
  obtain ⟨i, hdec, rfl⟩ | ⟨r, hrej, rfl⟩ := step_cases hstep
  · rw [step_of_decode (hfetch.trans hdec), State.advancePc_withDraws, after_withDraws (hread i hdec),
      endCycle_withDraws]
  · rw [step_of_reject (hfetch.trans hrej), unknownCycle_withDraws]

end Sys2Proof.Machine

/-! ## The frame of every handler

`Respects f s` is closed under every write that the footprint `f` allows, so the frame of a handler is read off its
meaning, one write after the other. -/

namespace Sys2Proof.Machine

/-- Writing a register back its own value changes nothing (R103). -/
@[simp] theorem State.setV_getV (s : State) (x : Reg) : s.setV x (s.getV x) = s := by
  simp [State.setV, State.getV]

/-- All that the key-wait can do: the program counter alone moves (R103). -/
theorem after_waitKey (x : Reg) (s : State) :
    after (.waitKey x) s =
      { s with pc := if s.keyDown x then s.rollBackPc.advancePc.pc else s.rollBackPc.pc } := by
  change (if s.keyDown x then (s.rollBackPc.setV x (s.rollBackPc.getV x)).advancePc else s.rollBackPc) = _
  rw [State.setV_getV]
  split <;> rfl

/-- A handler's answer is the state `after` it. -/
theorem eq_after_of_exec {i : Instr} {s t : State} (h : exec i s = .next t) : t = after i s := by
  rw [exec_eq] at h
  injection h with h
  exact h.symm

end Sys2Proof.Machine

namespace Sys2Proof.Safety

open Sys2Proof.Machine

section

variable {f : Footprint} {s t : State}

/-! ### Writes that keep within a footprint -/

theorem Respects.refl (f : Footprint) (s : State) : Respects f s s := by
  simp [Respects]

theorem Respects.setV (h : Respects f s t) {x : Reg} (hx : f.regs x = true) (b : Byte) :
    Respects f s (t.setV x b) := by
  obtain ⟨hregs, hrest⟩ := h
  refine ⟨fun k hk => ?_, hrest⟩
  have hkx : k ≠ x := by rintro rfl; simp [hx] at hk
  rw [State.getV_setV, if_neg hkx, hregs k hk]

theorem Respects.withPc (h : Respects f s t) (hf : f.pc = true) (p : Word) : Respects f s { t with pc := p } := by
  obtain ⟨hregs, -, hrest⟩ := h
  exact ⟨hregs, by simp [hf], hrest⟩

theorem Respects.withI (h : Respects f s t) (hf : f.i = true) (a : Word) : Respects f s { t with i := a } := by
  obtain ⟨hregs, hpc, -, hrest⟩ := h
  exact ⟨hregs, hpc, by simp [hf], hrest⟩

theorem Respects.withStack (h : Respects f s t) (hf : f.stack = true) (st : Vector Word 16) :
    Respects f s { t with stack := st } := by
  obtain ⟨hregs, hpc, hi, -, hrest⟩ := h
  exact ⟨hregs, hpc, hi, by simp [hf], hrest⟩

theorem Respects.withSp (h : Respects f s t) (hf : f.sp = true) (p : Fin 17) : Respects f s { t with sp := p } := by
  obtain ⟨hregs, hpc, hi, hstack, -, hrest⟩ := h
  exact ⟨hregs, hpc, hi, hstack, by simp [hf], hrest⟩

theorem Respects.withDt (h : Respects f s t) (hf : f.dt = true) (b : Byte) : Respects f s { t with dt := b } := by
  obtain ⟨hregs, hpc, hi, hstack, hsp, -, hrest⟩ := h
  exact ⟨hregs, hpc, hi, hstack, hsp, by simp [hf], hrest⟩

theorem Respects.withSt (h : Respects f s t) (hf : f.st = true) (b : Byte) : Respects f s { t with st := b } := by
  obtain ⟨hregs, hpc, hi, hstack, hsp, hdt, -, hrest⟩ := h
  exact ⟨hregs, hpc, hi, hstack, hsp, hdt, by simp [hf], hrest⟩

theorem Respects.withFb (h : Respects f s t) (hf : f.fb = true) (g : Framebuffer) :
    Respects f s { t with fb := g } := by
  obtain ⟨hregs, hpc, hi, hstack, hsp, hdt, hst, -, hrest⟩ := h
  exact ⟨hregs, hpc, hi, hstack, hsp, hdt, hst, by simp [hf], hrest⟩

theorem Respects.raiseOverflow (h : Respects f s t) (hf : f.sovf = true) :
    Respects f s (raise .stackOverflow t) := by
  simpa [Respects, hf, raise_fb, Condition.bit, Condition.code, State.getV, State.memRead] using h

theorem Respects.raiseUnderflow (h : Respects f s t) (hf : f.sunf = true) :
    Respects f s (raise .stackUnderflow t) := by
  simpa [Respects, hf, raise_fb, Condition.bit, Condition.code, State.getV, State.memRead] using h

theorem Respects.memWrite (h : Respects f s t) {k : Nat} (hk : k < f.storedBytes) (b : Byte) :
    Respects f s (t.memWrite (s.effAddr k) b) := by
  obtain ⟨hregs, hpc, hi, hstack, hsp, hdt, hst, hfb, hunk, hsovf, hsunf, hkeys, htone, hfont, hdraws, hmem⟩ := h
  refine ⟨hregs, hpc, hi, hstack, hsp, hdt, hst, hfb, hunk, hsovf, hsunf, hkeys, htone, ?_, hdraws, fun a ha => ?_⟩
  · rw [State.memWrite_font, hfont]
  · rw [State.memRead_memWrite, State.effAddr_mod, if_neg (ha k hk), hmem a ha]

/-! ### The shared operations of the handlers -/

theorem Respects.flagThenResult (h : Respects f s t) {x : Reg} (hF : f.regs regF = true) (hx : f.regs x = true)
    (flag : Bool) (b : Byte) : Respects f s (t.flagThenResult flag x b) :=
  (h.setV hF _).setV hx _

theorem Respects.skipIf (h : Respects f s t) (hf : f.pc = true) (taken : Bool) : Respects f s (t.skipIf taken) := by
  rw [State.skipIf_eq]
  exact h.withPc hf _

theorem Respects.pop (h : Respects f s t) (hpc : f.pc = true) (hsp : f.sp = true) (hsunf : f.sunf = true) :
    Respects f s t.pop := by
  obtain ⟨-, heq⟩ | ⟨_, heq⟩ := t.pop_cases <;> rw [heq]
  · exact h.raiseUnderflow hsunf
  · exact (h.withSp hsp ⟨t.sp.val - 1, by omega⟩).withPc hpc _

theorem Respects.pushAndJump (h : Respects f s t) (hpc : f.pc = true) (hstack : f.stack = true) (hsp : f.sp = true)
    (hsovf : f.sovf = true) (target : Word) : Respects f s (t.pushAndJump target) := by
  obtain ⟨-, heq⟩ | ⟨hlt, heq⟩ := t.pushAndJump_cases target <;> rw [heq]
  · exact h.raiseOverflow hsovf
  · exact ((h.withStack hstack (t.stack.set t.sp.val t.pc hlt)).withSp hsp ⟨t.sp.val + 1, by omega⟩).withPc hpc target

theorem Respects.storeList (h : Respects f s t) {ks : List Nat} (hks : ∀ k ∈ ks, k < f.storedBytes) :
    Respects f s (storeList s ks t) :=
  List.foldlRecOn ks _ h fun _ hu k hk => hu.memWrite (hks k hk) _

theorem Respects.loadList (h : Respects f s t) {ks : List Nat} (hks : ∀ k ∈ ks, f.regs (regNumber k) = true)
    (source : State) : Respects f s (loadList source ks t) :=
  List.foldlRecOn ks _ h fun _ hu k hk => hu.setV (hks k hk) _

end

/-! ### The handlers -/

/-- The registers that `FX65` numbers are those the access matrix gives it. -/
theorem accessMatrix_loadRegs_regs {x : Reg} {k : Nat} (hk : k ∈ regsUpTo x) :
    (accessMatrix (.loadRegs x)).regs (regNumber k) = true := by
  have hle : k ≤ x.val := (mem_regsUpTo x k).1 hk
  exact decide_eq_true ((Nat.mod_le k 16).trans hle)

/-- The access matrix of R27 bounds the writes of every handler. -/
theorem after_respects (i : Instr) (s : State) : Respects (accessMatrix i) s (after i s) := by
  have h := Respects.refl (accessMatrix i) s
  cases i with
  | cls => exact h.withFb rfl _
  | ret => exact h.pop rfl rfl rfl
  | sys nnn => exact h
  | jp nnn | jpV0 nnn => exact h.withPc rfl _
  | call nnn => exact h.pushAndJump rfl rfl rfl rfl _
  | seImm x nn | sneImm x nn | seReg x y | sneReg x y | skp x | sknp x => exact h.skipIf rfl _
  | waitKey x => rw [after_waitKey]; exact h.withPc rfl _
  | ldImm x nn | addImm x nn | ldReg x y | orReg x y | andReg x y | xorReg x y | rnd x nn | ldVxDt x =>
    exact h.setV (beq_self_eq_true x) _
  | addReg x y | subReg x y | shr x y | subn x y | shl x y =>
    exact h.flagThenResult (by simp [accessMatrix, regAndFlag]) (by simp [accessMatrix, regAndFlag]) _ _
  | ldI nnn | addI x | ldF x => exact h.withI rfl _
  | drw x y n => exact (h.withFb rfl _).setV (beq_self_eq_true regF) _
  | ldDtVx x => exact h.withDt rfl _
  | ldStVx x => exact h.withSt rfl _
  | bcd x =>
    exact ((h.memWrite (Nat.zero_lt_succ 2) _).memWrite (Nat.one_lt_succ_succ 1) _).memWrite (Nat.lt_succ_self 2) _
  | storeRegs x => exact h.storeList fun k hk => Nat.lt_succ_of_le ((mem_regsUpTo x k).1 hk)
  | loadRegs x => exact h.loadList (fun _ hk => accessMatrix_loadRegs_regs hk) s

/-- Settles O18: the answer of a handler is `after` it, whose frame is `after_respects`. -/
theorem handlersWriteOnlyWhatTheAccessMatrixAllows : Obligations.HandlersWriteOnlyWhatTheAccessMatrixAllows := by
  intro i s t h
  rw [eq_after_of_exec h]
  exact after_respects i s

end Sys2Proof.Safety

/-! ## The invariant

`Inv` is kept by every write that keeps its own bound; the registers, timers, framebuffer, keys, tone and DIAG do not
enter it, so for them the invariant of the old state is the invariant of the new one. -/

namespace Sys2Proof.Safety

open Sys2Proof.Machine

section

variable {s : State}

/-! ### The writes of the handlers -/

theorem Inv.withPc (h : Inv s) {p : Word} (hp : p.toNat < 4096) : Inv { s with pc := p } := by
  obtain ⟨-, hrest⟩ := h
  exact ⟨hp, hrest⟩

theorem Inv.withI (h : Inv s) {a : Word} (ha : a.toNat < 4096) : Inv { s with i := a } := by
  obtain ⟨hpc, -, hrest⟩ := h
  exact ⟨hpc, ha, hrest⟩

theorem Inv.withMem (h : Inv s) {m : Memory} (hm : m.wf = true) : Inv { s with mem := m } := by
  obtain ⟨hpc, hi, hsp, hstack, -⟩ := h
  exact ⟨hpc, hi, hsp, hstack, hm⟩

theorem Inv.wf (h : Inv s) : s.mem.wf = true := by
  obtain ⟨-, -, -, -, hm⟩ := h
  exact hm

theorem Inv.memWrite (h : Inv s) (a : Nat) (b : Byte) : Inv (s.memWrite a b) :=
  h.withMem (s.memWrite_wf a b h.wf)

theorem Inv.raise (h : Inv s) (c : Condition) : Inv (raise c s) := by
  cases c <;> exact h

theorem Inv.setPc (h : Inv s) (n : Nat) : Inv (s.setPc n) := h.withPc (mod4096_lt n)

theorem Inv.skipIf (h : Inv s) (taken : Bool) : Inv (s.skipIf taken) := by
  cases taken
  · exact h
  · exact h.setPc _

/-- A pop takes PC from a slot, and the slots are below 4096. -/
theorem Inv.pop (h : Inv s) : Inv s.pop := by
  obtain ⟨-, heq⟩ | ⟨hpos, heq⟩ := s.pop_cases <;> rw [heq]
  · exact h.raise _
  · obtain ⟨-, hi, -, hstack, hm⟩ := h
    exact ⟨hstack _, hi, Fin.is_le _, hstack, hm⟩

/-- A push writes PC into one slot, and PC is below 4096. -/
theorem Inv.pushAndJump (h : Inv s) {target : Word} (ht : target.toNat < 4096) : Inv (s.pushAndJump target) := by
  obtain ⟨-, heq⟩ | ⟨hlt, heq⟩ := s.pushAndJump_cases target <;> rw [heq]
  · exact h.raise _
  · obtain ⟨hpc, hi, -, hstack, hm⟩ := h
    refine ⟨ht, hi, Fin.is_le _, fun k => ?_, hm⟩
    simp only [State.getStack, Fin.getElem_fin, Vector.getElem_set]
    split
    · exact hpc
    · exact hstack k

end

theorem zext16_lt (nnn : Addr12) : (zext16 nnn).toNat < 4096 := by
  rw [zext16_toNat]
  exact nnn.isLt

/-- A glyph address is at most 255 * 5. -/
theorem glyphAddr_lt (vx : Byte) : (glyphAddr vx).toNat < 4096 := by
  rw [glyphAddr_toNat]
  omega

/-! ### The handlers, the cycle and the host -/

/-- Every handler keeps the invariant; the handlers left to the last case write none of its parts. -/
theorem Inv.after {s : State} (h : Inv s) (i : Instr) : Inv (after i s) := by
  cases i with
  | ret => exact h.pop
  | jp nnn => exact h.withPc (zext16_lt nnn)
  | call nnn => exact h.pushAndJump (zext16_lt nnn)
  | jpV0 nnn => exact h.setPc _
  | seImm x nn | sneImm x nn | seReg x y | sneReg x y | skp x | sknp x => exact h.skipIf _
  | waitKey x =>
    rw [after_waitKey]
    split
    · exact h.withPc (mod4096_lt _)
    · exact h.withPc (mod4096_lt _)
  | ldI nnn => exact h.withI (zext16_lt nnn)
  | addI x => exact h.withI (mod4096_lt _)
  | ldF x => exact h.withI (glyphAddr_lt _)
  | bcd x => exact ((h.memWrite _ _).memWrite _ _).memWrite _ _
  | storeRegs x =>
    change Inv (storeList s (regsUpTo x) s)
    rw [storeList_eq]
    exact h.withMem (storeList_wf _ _ _ h.wf)
  | loadRegs x =>
    change Inv (loadList s (regsUpTo x) s)
    rw [loadList_eq]
    exact h
  | _ => exact h

/-- The end of the cycle writes no part of the invariant. -/
theorem Inv.endCycle {s : State} (h : Inv s) : Inv (endCycle s) := h

theorem inv_powerOn (font : Font) (n : Nat) : Inv (State.powerOn font n) := by
  refine ⟨by simp [State.powerOn], Nat.zero_lt_succ _, Nat.zero_le _, fun k => ?_, State.powerOn_wf font n⟩
  simp [State.powerOn, State.getStack]

theorem Inv.hostReset (s : State) : Inv (hostReset s) := inv_powerOn _ _

/-- A refused load keeps the invariant of the old state; a load that succeeds starts from the reset state. -/
theorem Inv.loadProgram {s : State} (h : Inv s) (bytes : List Byte) : Inv (loadProgram bytes s).2 := by
  unfold Machine.loadProgram
  split
  · exact h
  · rw [loadBytes_eq]
    exact (Inv.hostReset s).withMem (loadBytes_wf _ _ _ (Inv.hostReset s).wf)

/-- Settles O7: both kinds of cycle advance PC, write by `Inv.after` or `Inv.raise`, and end. -/
theorem everyCycleKeepsTheInvariant : Obligations.EveryCycleKeepsTheInvariant := by
  intro s t h hstep
  have hadv : Inv s.advancePc := h.setPc _
  obtain ⟨i, -, rfl⟩ | ⟨r, -, rfl⟩ := step_cases hstep
  · exact (hadv.after i).endCycle
  · exact (hadv.raise .unknownOpcode).endCycle

/-- Settles O8: `set_key` writes no part of the invariant. -/
theorem hostOperationsKeepTheInvariant : Obligations.HostOperationsKeepTheInvariant :=
  fun s bytes _ _ h => ⟨Inv.hostReset s, h.loadProgram bytes, h⟩

/-- Settles O6: the reset state is a power-on state. -/
theorem resetStateMeetsTheInvariant : Obligations.ResetStateMeetsTheInvariant :=
  ⟨inv_powerOn _ _, inv_powerOn⟩

end Sys2Proof.Safety

/-! ## What each cycle leaves alone -/

namespace Sys2Proof.Machine

open Sys2Proof.Safety

/-! ### Memory -/

theorem State.skipIf_mem (s : State) (taken : Bool) : (s.skipIf taken).mem = s.mem := by
  rw [State.skipIf_eq]

theorem State.pop_mem (s : State) : s.pop.mem = s.mem := by
  obtain ⟨-, heq⟩ | ⟨_, heq⟩ := s.pop_cases <;> rw [heq]
  exact raise_mem s _

theorem State.pushAndJump_mem (s : State) (target : Word) : (s.pushAndJump target).mem = s.mem := by
  obtain ⟨-, heq⟩ | ⟨_, heq⟩ := s.pushAndJump_cases target <;> rw [heq]
  exact raise_mem s _

theorem loadList_mem (source : State) (ks : List Nat) (s : State) : (loadList source ks s).mem = s.mem := by
  rw [loadList_eq]

/-- Only `FX33` and `FX55` store: every other handler leaves the memory as data, not only byte by byte. -/
theorem after_mem {i : Instr} (hbcd : ∀ x, i ≠ .bcd x) (hstore : ∀ x, i ≠ .storeRegs x) (s : State) :
    (after i s).mem = s.mem := by
  cases i with
  | bcd x => exact absurd rfl (hbcd x)
  | storeRegs x => exact absurd rfl (hstore x)
  | ret => exact s.pop_mem
  | call nnn => exact s.pushAndJump_mem _
  | seImm x nn | sneImm x nn | seReg x y | sneReg x y | skp x | sknp x => exact s.skipIf_mem _
  | waitKey x => rw [after_waitKey]
  | loadRegs x => exact loadList_mem s _ s
  | _ => rfl

/-! ### The access matrix, column by column (R27) -/

theorem accessMatrix_fb {i : Instr} (hdrw : ∀ x y n, i ≠ .drw x y n) (hcls : i ≠ .cls) :
    (accessMatrix i).fb = false := by
  cases i with
  | drw x y n => exact absurd rfl (hdrw x y n)
  | cls => exact absurd rfl hcls
  | _ => rfl

theorem accessMatrix_stack {i : Instr} (hcall : ∀ nnn, i ≠ .call nnn) : (accessMatrix i).stack = false := by
  cases i with
  | call nnn => exact absurd rfl (hcall nnn)
  | _ => rfl

theorem accessMatrix_sp {i : Instr} (hcall : ∀ nnn, i ≠ .call nnn) (hret : i ≠ .ret) :
    (accessMatrix i).sp = false := by
  cases i with
  | call nnn => exact absurd rfl (hcall nnn)
  | ret => exact absurd rfl hret
  | _ => rfl

theorem accessMatrix_i {i : Instr} (hldI : ∀ nnn, i ≠ .ldI nnn) (haddI : ∀ x, i ≠ .addI x)
    (hldF : ∀ x, i ≠ .ldF x) : (accessMatrix i).i = false := by
  cases i with
  | ldI nnn => exact absurd rfl (hldI nnn)
  | addI x => exact absurd rfl (haddI x)
  | ldF x => exact absurd rfl (hldF x)
  | _ => rfl

/-- Settles O19: a decoded instruction writes what its frame `after_respects` allows and leaves the memory by
`after_mem`; an unknown word writes the framebuffer, DIAG and the timers only. -/
theorem eachStoreChangesOnlyByItsOwnInstructions : Obligations.EachStoreChangesOnlyByItsOwnInstructions := by
  intro s t hstep
  obtain ⟨i, hdec, rfl⟩ | ⟨r, hrej, rfl⟩ := step_cases hstep
  · obtain ⟨-, -, hi, hstack, hsp, -, -, hfb, -, -, -, hkeys, -, hfont, -, -⟩ := after_respects i s.advancePc
    simp only [hdec, ne_eq, Except.ok.injEq]
    refine ⟨hkeys, hfont, fun h => ?_, fun hdrw hcls _ => ?_, fun hcall => ?_, fun hcall hret => ?_, fun hldI h => ?_⟩
    · exact after_mem (fun x => (h x).1) (fun x => (h x).2) _
    · exact hfb (accessMatrix_fb hdrw hcls)
    · exact hstack (accessMatrix_stack hcall)
    · exact hsp (accessMatrix_sp hcall hret)
    · exact hi (accessMatrix_i hldI (fun x => (h x).1) fun x => (h x).2)
  · exact ⟨rfl, rfl, fun _ => rfl, fun _ _ hne => absurd hrej (hne r), fun _ => rfl, fun _ _ => rfl, fun _ _ => rfl⟩

/-! ## Keys, tone and DIAG

A run with other keys, tone and DIAG is the same run seen through `State.withSignals`: no handler reads the tone or
DIAG, the key instructions alone read the keys, and DIAG only gains the flag of the condition that the cycle meets. -/

/-- DIAG with the flag of a condition set, if one is given (R107). -/
def withFlag (diag : BitVec 3) (c : Option Condition) : BitVec 3 :=
  match c with
  | none => diag
  | some c => diag ||| c.bit

/-- The condition that the handler of `i` meets with the stack pointer at `sp` (R109, R110). -/
def handlerCondition (i : Instr) (sp : Fin 17) : Option Condition :=
  match i with
  | .call _ => if sp.val = 16 then some .stackOverflow else none
  | .ret => if sp.val = 0 then some .stackUnderflow else none
  | _ => none

/-- The condition that the cycle from `s` meets (R107 to R110). -/
def cycleCondition (s : State) : Option Condition :=
  match decodeWord s.fetchWord with
  | .ok i => handlerCondition i s.sp
  | .error _ => some .unknownOpcode

theorem cycleCondition_of_decode {s : State} {i : Instr} (h : decodeWord s.fetchWord = .ok i) :
    cycleCondition s = handlerCondition i s.sp := by
  simp only [cycleCondition, h]

theorem cycleCondition_of_reject {s : State} {r : DecodeReject} (h : decodeWord s.fetchWord = .error r) :
    cycleCondition s = some .unknownOpcode := by
  simp only [cycleCondition, h]

/-- The state with keys, tone and DIAG replaced, all else kept. -/
def State.withSignals (s : State) (keys : Vector Bool 16) (tone : Bool) (diag : BitVec 3) : State :=
  { s with keys := keys, tone := tone, diag := diag }

variable {s t : State} {keys : Vector Bool 16} {tone : Bool} {diag : BitVec 3}

/-! ### The operations of the handlers -/

@[simp] theorem State.fetchWord_withSignals : (s.withSignals keys tone diag).fetchWord = s.fetchWord := rfl

@[simp] theorem State.advancePc_withSignals :
    (s.withSignals keys tone diag).advancePc = s.advancePc.withSignals keys tone diag := rfl

theorem State.skipIf_withSignals (taken : Bool) :
    (s.withSignals keys tone diag).skipIf taken = (s.skipIf taken).withSignals keys tone diag := by
  cases taken <;> rfl

theorem State.pop_withSignals :
    (s.withSignals keys tone diag).pop =
      s.pop.withSignals keys tone (withFlag diag (handlerCondition .ret s.sp)) := by
  by_cases h : s.sp.val = 0
  · simp [State.pop, handlerCondition, State.withSignals, h, raise, withFlag]
  · simp [State.pop, handlerCondition, State.withSignals, h, withFlag, State.getStack]

theorem State.pushAndJump_withSignals (nnn : Addr12) :
    (s.withSignals keys tone diag).pushAndJump (zext16 nnn) =
      (s.pushAndJump (zext16 nnn)).withSignals keys tone (withFlag diag (handlerCondition (.call nnn) s.sp)) := by
  by_cases h : s.sp.val = 16
  · simp [State.pushAndJump, handlerCondition, State.withSignals, h, raise, withFlag]
  · simp [State.pushAndJump, handlerCondition, State.withSignals, h, withFlag]

theorem storeList_withSignals (ks : List Nat) (latched : State) :
    storeList (latched.withSignals keys tone diag) ks (s.withSignals keys tone diag) =
      (storeList latched ks s).withSignals keys tone diag :=
  List.foldl_hom (State.withSignals · keys tone diag) fun _ _ => rfl

theorem loadList_withSignals (ks : List Nat) (source : State) :
    loadList (source.withSignals keys tone diag) ks (s.withSignals keys tone diag) =
      (loadList source ks s).withSignals keys tone diag :=
  List.foldl_hom (State.withSignals · keys tone diag) fun _ _ => rfl

/-! ### The end of the cycle -/

/-- The end of the cycle signals the tone anew (R62). -/
@[simp] theorem endCycle_withSignals :
    endCycle (s.withSignals keys tone diag) = (endCycle s).withSignals keys (endCycle s).tone diag := rfl

@[simp] theorem unknownCycle_withSignals :
    unknownCycle (s.withSignals keys tone diag) =
      (unknownCycle s).withSignals keys (unknownCycle s).tone (withFlag diag (some .unknownOpcode)) := rfl

/-! ### The handlers and the step -/

/-- A handler that reads no key, or is shown the same keys, does the same whatever tone and DIAG are. -/
theorem after_withSignals {i : Instr} (hkeys : readsKeys i = false ∨ keys = s.keys) :
    after i (s.withSignals keys tone diag) =
      (after i s).withSignals keys tone (withFlag diag (handlerCondition i s.sp)) := by
  cases i with
  | ret => exact State.pop_withSignals
  | call nnn => exact State.pushAndJump_withSignals nnn
  | seImm x nn | sneImm x nn | seReg x y | sneReg x y => exact State.skipIf_withSignals _
  | skp x | sknp x =>
    obtain rfl := hkeys.resolve_left Bool.noConfusion
    exact State.skipIf_withSignals _
  | waitKey x =>
    obtain rfl := hkeys.resolve_left Bool.noConfusion
    rw [after_waitKey, after_waitKey]
    rfl
  | storeRegs x => exact storeList_withSignals _ s
  | loadRegs x => exact loadList_withSignals _ s
  | _ => rfl

/-- A cycle that reads no key, or is shown the same keys, does the same whatever tone and DIAG are; DIAG gains the flag
of the cycle's condition. -/
theorem step_withSignals (hstep : step s = .next t)
    (hkeys : (∀ i, decodeWord s.fetchWord = .ok i → readsKeys i = false) ∨ keys = s.keys) :
    step (s.withSignals keys tone diag) = .next (t.withSignals keys t.tone (withFlag diag (cycleCondition s))) := by
  have hfetch : decodeWord (s.withSignals keys tone diag).fetchWord = decodeWord s.fetchWord := by
    rw [State.fetchWord_withSignals]
  obtain ⟨i, hdec, rfl⟩ | ⟨r, hrej, rfl⟩ := step_cases hstep
  · have hi : readsKeys i = false ∨ keys = s.advancePc.keys := hkeys.imp_left (· i hdec)
    rw [step_of_decode (hfetch.trans hdec), State.advancePc_withSignals, after_withSignals hi,
      endCycle_withSignals, cycleCondition_of_decode hdec, State.advancePc_sp]
  · rw [step_of_reject (hfetch.trans hrej), unknownCycle_withSignals, cycleCondition_of_reject hrej]

/-- A cycle keeps the keys, and DIAG gains the flag of its condition and nothing else. -/
theorem step_eq_withSignals (hstep : step s = .next t) :
    t = t.withSignals s.keys t.tone (withFlag s.diag (cycleCondition s)) := by
  have h := step_withSignals (tone := s.tone) (diag := s.diag) hstep (.inr rfl)
  change step s = _ at h
  rw [hstep] at h
  injection h

theorem step_keys (hstep : step s = .next t) : t.keys = s.keys :=
  (congrArg State.keys (step_eq_withSignals hstep) :)

theorem step_diag (hstep : step s = .next t) : t.diag = withFlag s.diag (cycleCondition s) :=
  (congrArg State.diag (step_eq_withSignals hstep) :)

/-- Settles O20: the run with other keys and the same tone and DIAG. -/
theorem keysAreReadOnlyByTheKeyInstructions : Obligations.KeysAreReadOnlyByTheKeyInstructions := by
  intro s t keys hread hstep
  have h := step_withSignals (keys := keys) (tone := s.tone) (diag := s.diag) hstep (.inl hread)
  rw [← step_diag hstep] at h
  exact h

/-- Settles O22: the run with the same keys and another tone and DIAG. -/
theorem noInstructionReadsToneOrDiag : Obligations.NoInstructionReadsToneOrDiag := by
  intro s t tone diag hstep
  refine ⟨_, step_withSignals hstep (.inr rfl), ?_⟩
  simp only [State.withSignals, ← step_keys hstep]

/-! ### The flags of DIAG -/

/-- The bits of two conditions are distinct (R107). -/
theorem Condition.bit_getLsbD_code (c e : Condition) : c.bit.getLsbD e.code = true ↔ c = e := by
  cases c <;> cases e <;> decide

/-- Setting a condition's flag sets that flag and keeps the others (R22). -/
theorem withFlag_getLsbD (c : Option Condition) (e : Condition) :
    (withFlag diag c).getLsbD e.code = true ↔ diag.getLsbD e.code = true ∨ c = some e := by
  cases c with
  | none => simp [withFlag]
  | some c => simp only [withFlag, BitVec.getLsbD_or, Bool.or_eq_true, Condition.bit_getLsbD_code, Option.some.injEq]

/-- A flag is set after a cycle exactly when it was set before or its condition arose (R22). -/
theorem step_flag (hstep : step s = .next t) (e : Condition) :
    t.diag.getLsbD e.code = true ↔ s.diag.getLsbD e.code = true ∨ cycleCondition s = some e := by
  rw [step_diag hstep, withFlag_getLsbD]

/-- All the conditions a handler can meet: overflow by a call, underflow by a return. -/
theorem handlerCondition_eq_some {i : Instr} {sp : Fin 17} {c : Condition} :
    handlerCondition i sp = some c ↔
      ((∃ nnn, i = .call nnn) ∧ sp.val = 16 ∧ c = .stackOverflow) ∨
      (i = .ret ∧ sp.val = 0 ∧ c = .stackUnderflow) := by
  cases i with
  | call nnn => simp [handlerCondition, eq_comm]
  | ret => simp [handlerCondition, eq_comm]
  | _ => simp [handlerCondition]

theorem cycleCondition_eq_unknownOpcode :
    cycleCondition s = some .unknownOpcode ↔ ∃ r, decodeWord s.fetchWord = .error r := by
  cases h : decodeWord s.fetchWord with
  | ok i => simp [cycleCondition_of_decode h, handlerCondition_eq_some]
  | error r => simp [cycleCondition_of_reject h]

theorem cycleCondition_eq_stackOverflow :
    cycleCondition s = some .stackOverflow ↔
      (∃ nnn, decodeWord s.fetchWord = .ok (.call nnn)) ∧ s.sp.val = 16 := by
  cases h : decodeWord s.fetchWord with
  | ok i => simp [cycleCondition_of_decode h, handlerCondition_eq_some]
  | error r => simp [cycleCondition_of_reject h]

theorem cycleCondition_eq_stackUnderflow :
    cycleCondition s = some .stackUnderflow ↔ decodeWord s.fetchWord = .ok .ret ∧ s.sp.val = 0 := by
  cases h : decodeWord s.fetchWord with
  | ok i => simp [cycleCondition_of_decode h, handlerCondition_eq_some]
  | error r => simp [cycleCondition_of_reject h]

/-! ### The host clears the flags -/

theorem loadProgram_of_gt {bytes : List Byte} (h : 3584 < bytes.length) :
    loadProgram bytes s = (.programTooLarge, s) := if_pos h

theorem loadProgram_of_le {bytes : List Byte} (h : bytes.length ≤ 3584) :
    loadProgram bytes s = (.ok, loadBytes 0x200 bytes (hostReset s)) := if_neg h.not_gt

/-- Settles O16: `step_flag` for each flag with the condition spelled out; the host's part by cases of the length. -/
theorem diagFlagsAreStickyAndSetByTheirConditions : Obligations.DiagFlagsAreStickyAndSetByTheirConditions := by
  refine ⟨fun s t hstep => ⟨?_, ?_, ?_⟩, fun s bytes k pressed => ⟨rfl, fun h => ?_, fun h => ?_, rfl⟩⟩
  · rw [← cycleCondition_eq_unknownOpcode]
    exact step_flag hstep .unknownOpcode
  · rw [← cycleCondition_eq_stackOverflow]
    exact step_flag hstep .stackOverflow
  · rw [← cycleCondition_eq_stackUnderflow]
    exact step_flag hstep .stackUnderflow
  · rw [loadProgram_of_le h, loadBytes_eq]
    rfl
  · rw [loadProgram_of_gt h]

end Sys2Proof.Machine

/-! ## Memory as data, and stored bytes as code

A canonical memory lists exactly the bytes that differ from the reset contents, in rising order, so its bytes determine
it. The fetch reads through `State.memRead` like every load, so it sees what `FX55` stored. -/

namespace Sys2Proof.Machine

/-! ### Rising lists -/

theorem le_of_mem_of_risingFrom {lo : Nat} {l : List Host.Cell} {c : Host.Cell} (h : risingFrom lo l = true)
    (hc : c ∈ l) : lo ≤ c.1 := by
  induction l generalizing lo with
  | nil => simp at hc
  | cons d rest ih =>
    simp only [risingFrom, Bool.and_eq_true, decide_eq_true_eq] at h
    obtain ⟨hd, hrest⟩ := h
    obtain rfl | hc := List.mem_cons.1 hc
    · exact hd
    · have := ih hrest hc
      omega

theorem pairwise_of_risingFrom {lo : Nat} {l : List Host.Cell} (h : risingFrom lo l = true) :
    l.Pairwise (InvImage (· < ·) Prod.fst) := by
  induction l generalizing lo with
  | nil => exact .nil
  | cons d rest ih =>
    simp only [risingFrom, Bool.and_eq_true, decide_eq_true_eq] at h
    exact .cons (fun c hc => le_of_mem_of_risingFrom h.2 hc) (ih h.2)

/-- No address is listed twice in a rising list, so the lookup finds every pair. -/
theorem lookupCell_eq_some_iff {lo : Nat} {l : List Host.Cell} (h : risingFrom lo l = true) (a : Nat) (b : Byte) :
    lookupCell a l = some b ↔ (a, b) ∈ l := by
  induction l generalizing lo with
  | nil => simp [lookupCell]
  | cons d rest ih =>
    simp only [risingFrom, Bool.and_eq_true, decide_eq_true_eq] at h
    rw [lookupCell, List.mem_cons, Prod.ext_iff]
    split
    case isTrue hda =>
      have hnot : (a, b) ∉ rest := fun hmem => by
        have : d.1 + 1 ≤ a := le_of_mem_of_risingFrom h.2 hmem
        omega
      simp [hda, hnot, eq_comm]
    case isFalse hda => simp [ih h.2, Ne.symm hda]

/-! ### Canonical memories -/

/-- A canonical memory lists exactly the bytes below 4096 that differ from the reset contents (log entry 7). -/
theorem Memory.mem_cells_iff {m : Memory} (h : m.wf = true) (a : Nat) (b : Byte) :
    (a, b) ∈ m.cells ↔ a < 4096 ∧ b ≠ m.resetByte a ∧ m.byteAt a = b := by
  simp only [Memory.wf, Bool.and_eq_true, List.all_eq_true, decide_eq_true_eq, bne_iff_ne] at h
  obtain ⟨hrising, hcells⟩ := h
  rw [← lookupCell_eq_some_iff hrising, Memory.byteAt]
  constructor
  · intro hlook
    obtain ⟨ha, hb⟩ := hcells _ ((lookupCell_eq_some_iff hrising a b).1 hlook)
    exact ⟨ha, hb, by rw [hlook, Option.getD_some]⟩
  · rintro ⟨-, hb, hbyte⟩
    cases hlook : lookupCell a m.cells with
    | none =>
      rw [hlook, Option.getD_none] at hbyte
      exact absurd hbyte.symm hb
    | some c =>
      rw [hlook, Option.getD_some] at hbyte
      rw [hbyte]

/-- A canonical memory lists its addresses in rising order. -/
theorem Memory.cells_pairwise {m : Memory} (h : m.wf = true) : m.cells.Pairwise (InvImage (· < ·) Prod.fst) := by
  rw [Memory.wf, Bool.and_eq_true] at h
  exact pairwise_of_risingFrom h.1

/-- Settles O9: the two rising lists have the same members, by `Memory.mem_cells_iff`. -/
theorem canonicalMemoriesWithEqualBytesAreEqual : Obligations.CanonicalMemoriesWithEqualBytesAreEqual := by
  intro m m' hm hm' hfont hbytes
  have hcells : m.cells = m'.cells := by
    refine (Memory.cells_pairwise hm).eq_of_mem_iff (Memory.cells_pairwise hm') fun ⟨a, b⟩ => ?_
    rw [Memory.mem_cells_iff hm, Memory.mem_cells_iff hm', Memory.resetByte, Memory.resetByte, hfont]
    exact and_congr_right fun ha => by rw [hbytes a ha]
  exact congrArg₂ Memory.mk hfont hcells

/-! ### Self-modifying code -/

/-- Addresses count modulo 4096 (R31). -/
theorem State.memRead_congr (s : State) {a a' : Nat} (h : a % 4096 = a' % 4096) : s.memRead a = s.memRead a' := by
  rw [State.memRead, State.memRead, h]

/-- What `FX55` leaves at the address of a stored register (R92). -/
theorem after_storeRegs_memRead (s : State) {x k : Reg} (hk : k.val ≤ x.val) :
    (after (.storeRegs x) s).memRead (s.effAddr k.val) = s.getV k := by
  have hregs : ∀ j ∈ regsUpTo x, j < 4096 := fun j hj => by
    have := (mem_regsUpTo x j).1 hj
    omega
  have h := storeList_memRead_mem s (regsUpTo x) s hregs ((mem_regsUpTo x k.val).2 hk)
  rw [regNumber_of_reg] at h
  exact h

/-- `FX55` leaves the program counter alone (R92). -/
theorem after_storeRegs_pc (x : Reg) (s : State) : (after (.storeRegs x) s).pc = s.pc := by
  change (storeList s (regsUpTo x) s).pc = s.pc
  rw [storeList_eq]

/-- Settles O41: the two bytes of the next fetch lie at the addresses of two neighbouring stored registers. -/
theorem storedBytesAreFetchedByTheNextCycle : Obligations.StoredBytesAreFetchedByTheNextCycle := by
  intro s t x k k' hdec hstep hsucc hk' hpc
  rw [step_of_decode hdec] at hstep
  injection hstep with ht
  have hmem : ∀ a, t.memRead a = (after (.storeRegs x) s.advancePc).memRead a := fun a => by rw [← ht]; rfl
  have hnext : t.pc.toNat = s.advancePc.effAddr k.val := by
    rw [← ht, endCycle_pc, after_storeRegs_pc, State.advancePc_pc, mod4096_toNat, hpc]
    rfl
  have hnext' : (t.pc.toNat + 1) % 4096 = s.advancePc.effAddr k'.val % 4096 := by
    rw [hnext, hsucc, State.effAddr, State.effAddr]
    omega
  rw [State.fetchWord, t.memRead_congr hnext', hnext, hmem, hmem, after_storeRegs_memRead _ hk',
    after_storeRegs_memRead _ (by omega)]
  rfl

end Sys2Proof.Machine

/-! ## The encoding

The fields of a format are the operands it was made from, and a word is the format of its own fields: the first gives
that the decoder undoes the encoder, the second that the encoder undoes the decoder. One walk through the decoder says
what each of its answers tells about the word, the unknown words included; the rows of the opcode table are then held
against the encoder, with which a word that decodes agrees. -/

namespace Sys2Proof

/-! ### The fields of a format -/

section

variable (n1 : BitVec 4) (x y : Reg) (nnn : Addr12) (nn : Byte) (sub : BitVec 4) (n : Fin 16)

@[simp] theorem nibble1_formatNNN : nibble1 (formatNNN n1 nnn) = n1 := by
  apply BitVec.eq_of_toNat_eq; simp; omega

@[simp] theorem fieldNNN_formatNNN : fieldNNN (formatNNN n1 nnn) = nnn := by
  apply BitVec.eq_of_toNat_eq; simp; omega

@[simp] theorem nibble1_formatXNN : nibble1 (formatXNN n1 x nn) = n1 := by
  apply BitVec.eq_of_toNat_eq; simp; omega

@[simp] theorem fieldX_formatXNN : fieldX (formatXNN n1 x nn) = x := by
  apply Fin.ext; simp; omega

@[simp] theorem fieldNN_formatXNN : fieldNN (formatXNN n1 x nn) = nn := by
  apply BitVec.eq_of_toNat_eq; simp; omega

@[simp] theorem nibble1_formatXYS : nibble1 (formatXYS n1 x y sub) = n1 := by
  apply BitVec.eq_of_toNat_eq; simp; omega

@[simp] theorem fieldX_formatXYS : fieldX (formatXYS n1 x y sub) = x := by
  apply Fin.ext; simp; omega

@[simp] theorem fieldY_formatXYS : fieldY (formatXYS n1 x y sub) = y := by
  apply Fin.ext; simp; omega

@[simp] theorem nibble4_formatXYS : nibble4 (formatXYS n1 x y sub) = sub := by
  apply BitVec.eq_of_toNat_eq; simp; omega

@[simp] theorem fieldN_formatXYS : fieldN (formatXYS n1 x y (nib n)) = n := by
  rw [fieldN, nibble4_formatXYS]; rfl

end

/-! ### A word is the format of its fields -/

section

variable {op : Word} {n1 : BitVec 4}

theorem formatNNN_fields (h1 : (nibble1 op).toNat = n1.toNat) : formatNNN n1 (fieldNNN op) = op := by
  apply BitVec.eq_of_toNat_eq; simp at h1 ⊢; omega

theorem formatXNN_fields (h1 : (nibble1 op).toNat = n1.toNat) : formatXNN n1 (fieldX op) (fieldNN op) = op := by
  apply BitVec.eq_of_toNat_eq; simp at h1 ⊢; omega

theorem formatXNN_fields_sub {nn : Byte} (h1 : (nibble1 op).toNat = n1.toNat) (hnn : (fieldNN op).toNat = nn.toNat) :
    formatXNN n1 (fieldX op) nn = op := by
  rw [← BitVec.eq_of_toNat_eq hnn, formatXNN_fields h1]

theorem formatXYS_fields {sub : BitVec 4} (h1 : (nibble1 op).toNat = n1.toNat)
    (h4 : (nibble4 op).toNat = sub.toNat) : formatXYS n1 (fieldX op) (fieldY op) sub = op := by
  apply BitVec.eq_of_toNat_eq; simp at h1 h4 ⊢; omega

/-- A word is the concatenation of its two bytes (R44). -/
theorem wordOfBytes_extract (op : Word) : wordOfBytes (op.extractLsb' 8 8) (op.extractLsb' 0 8) = op := by
  apply BitVec.eq_of_toNat_eq
  rw [wordOfBytes, append_toNat, BitVec.extractLsb'_toNat, BitVec.extractLsb'_toNat, Nat.shiftRight_eq_div_pow]
  omega

end

/-! ### The decoder undoes the encoder -/

/-- Two operands of `0NNN` belong to the exact words `00E0` and `00EE` (R48). -/
theorem Instr.wellFormed_iff (i : Instr) :
    i.wellFormed = true ↔ i ≠ .sys 0x0E0#12 ∧ i ≠ .sys 0x0EE#12 := by
  cases i with
  | sys nnn => simp [wellFormed]
  | _ => simp [wellFormed]

/-- The leading nibble and the fixed trailing nibbles of a format select the row that it was made for. -/
theorem decodeLeading_encode {i : Instr} (hcls : i ≠ .cls) (hret : i ≠ .ret) :
    decodeLeading (encode i) = .ok i := by
  cases i with
  | cls => exact absurd rfl hcls
  | ret => exact absurd rfl hret
  | sys nnn | jp nnn | call nnn | ldI nnn | jpV0 nnn => simp [encode, decodeLeading]
  | seImm x nn | sneImm x nn | ldImm x nn | addImm x nn | rnd x nn => simp [encode, decodeLeading]
  | seReg x y | sneReg x y | drw x y n => simp [encode, decodeLeading]
  | ldReg x y | orReg x y | andReg x y | xorReg x y | addReg x y | subReg x y | shr x y | subn x y | shl x y =>
    simp [encode, decodeLeading, decode8]
  | skp x | sknp x => simp [encode, decodeLeading, decodeE]
  | ldVxDt x | waitKey x | ldDtVx x | ldStVx x | addI x | ldF x | bcd x | storeRegs x | loadRegs x =>
    simp [encode, decodeLeading, decodeF]

/-- By their leading nibble the exact words would be `0NNN` with the two operands that are not well-formed, so no other
instruction is encoded by one of them. -/
theorem encode_ne_exact {i : Instr} (hi : i.wellFormed = true) (hcls : i ≠ .cls) (hret : i ≠ .ret) :
    encode i ≠ 0x00E0#16 ∧ encode i ≠ 0x00EE#16 := by
  have hlead := decodeLeading_encode hcls hret
  obtain ⟨hE0, hEE⟩ := i.wellFormed_iff.1 hi
  refine ⟨fun h => ?_, fun h => ?_⟩ <;> rw [h] at hlead
  · exact hE0 (Except.ok.inj hlead).symm
  · exact hEE (Except.ok.inj hlead).symm

theorem decodeWord_encode {i : Instr} (hi : i.wellFormed = true) : decodeWord (encode i) = .ok i := by
  by_cases hcls : i = .cls
  · subst hcls; rfl
  by_cases hret : i = .ret
  · subst hret; rfl
  obtain ⟨hE0, hEE⟩ := encode_ne_exact hi hcls hret
  rw [decodeWord_of_ne hE0 hEE, decodeLeading_encode hcls hret]

/-- Settles O2: `decodeWord_encode`, and two bytes make up the word they were cut from. -/
theorem encodedInstructionDecodesToItself : Obligations.EncodedInstructionDecodesToItself := by
  intro i rest hi
  refine ⟨decodeWord_encode hi, ?_⟩
  change (decodeWord (wordOfBytes ((encode i).extractLsb' 8 8) ((encode i).extractLsb' 0 8))).map _ = _
  rw [wordOfBytes_extract, decodeWord_encode hi]
  rfl

/-! ### What the decoder's answers say about the word -/

/-- The word is in the set of unknown words that R50 gives this name. -/
inductive Unknown (op : Word) : DecodeReject → Prop where
  | of5XYN (h : op.toNat / 4096 = 0x5 ∧ op.toNat % 16 ≠ 0) : Unknown op (.unknown5XYN op)
  | of8XYN (h : op.toNat / 4096 = 0x8 ∧ op.toNat % 16 ∈ [0x8, 0x9, 0xA, 0xB, 0xC, 0xD, 0xF]) :
      Unknown op (.unknown8XYN op)
  | of9XYN (h : op.toNat / 4096 = 0x9 ∧ op.toNat % 16 ≠ 0) : Unknown op (.unknown9XYN op)
  | ofEXNN (h : op.toNat / 4096 = 0xE ∧ op.toNat % 256 ∉ [0x9E, 0xA1]) : Unknown op (.unknownEXNN op)
  | ofFXNN (h : op.toNat / 4096 = 0xF ∧
      op.toNat % 256 ∉ [0x07, 0x0A, 0x15, 0x18, 0x1E, 0x29, 0x33, 0x55, 0x65]) : Unknown op (.unknownFXNN op)

/-- The answer is right for the word: an instruction that encodes to it, or the name of the set that it is in. -/
def Explains (op : Word) : Except DecodeReject Instr → Prop
  | .ok i => encode i = op
  | .error r => Unknown op r

section

variable {op : Word}

theorem nibble4_eq_zero_iff : nibble4 op = 0x0#4 ↔ op.toNat % 16 = 0 := by
  rw [← BitVec.toNat_inj, nibble4_toNat]; rfl

theorem explains_decode8 (h1 : (nibble1 op).toNat = 0x8) : Explains op (decode8 op) := by
  unfold decode8
  split
  case h_10 =>
    refine .of8XYN ⟨(nibble1_toNat op).symm.trans h1, ?_⟩
    simp only [nibble4_toNat, imp_false, List.mem_cons, List.not_mem_nil] at *
    omega
  all_goals exact formatXYS_fields h1 ‹_›

theorem explains_decodeE (h1 : (nibble1 op).toNat = 0xE) : Explains op (decodeE op) := by
  unfold decodeE
  split
  case h_3 => exact .ofEXNN ⟨(nibble1_toNat op).symm.trans h1, by simp_all⟩
  all_goals exact formatXNN_fields_sub h1 ‹_›

theorem explains_decodeF (h1 : (nibble1 op).toNat = 0xF) : Explains op (decodeF op) := by
  unfold decodeF
  split
  case h_10 => exact .ofFXNN ⟨(nibble1_toNat op).symm.trans h1, by simp_all⟩
  all_goals exact formatXNN_fields_sub h1 ‹_›

theorem explains_decodeLeading (op : Word) : Explains op (decodeLeading op) := by
  unfold decodeLeading
  split
  case h_1 h1 | h_2 h1 | h_3 h1 | h_11 h1 | h_12 h1 => exact formatNNN_fields h1
  case h_4 h1 | h_5 h1 | h_7 h1 | h_8 h1 | h_13 h1 => exact formatXNN_fields h1
  case h_6 h1 =>
    split
    case isTrue h4 => exact formatXYS_fields h1 (congrArg BitVec.toNat h4)
    case isFalse h4 => exact .of5XYN ⟨(nibble1_toNat op).symm.trans h1, mt nibble4_eq_zero_iff.2 h4⟩
  case h_9 h1 => exact explains_decode8 h1
  case h_10 h1 =>
    split
    case isTrue h4 => exact formatXYS_fields h1 (congrArg BitVec.toNat h4)
    case isFalse h4 => exact .of9XYN ⟨(nibble1_toNat op).symm.trans h1, mt nibble4_eq_zero_iff.2 h4⟩
  case h_14 h1 => exact formatXYS_fields h1 rfl
  case h_15 h1 => exact explains_decodeE h1
  case h_16 =>
    have := (nibble1 op).isLt
    simp only [imp_false] at *
    exact explains_decodeF (by omega)

theorem explains_decodeWord (op : Word) : Explains op (decodeWord op) := by
  unfold decodeWord
  split
  case isTrue h => exact h.symm
  case isFalse =>
    split
    case isTrue h => exact h.symm
    case isFalse => exact explains_decodeLeading op

theorem encode_of_decodeWord {i : Instr} (h : decodeWord op = .ok i) : encode i = op := by
  simpa only [h, Explains] using explains_decodeWord op

/-- The words of `0NNN` with the two operands that are not well-formed decode to `00E0` and `00EE` (R48). -/
theorem wellFormed_of_decodeWord {i : Instr} (h : decodeWord op = .ok i) : i.wellFormed = true := by
  rw [← encode_of_decodeWord h] at h
  rw [Instr.wellFormed_iff]
  constructor <;> (rintro rfl; exact absurd h (by decide))

/-- Settles O3: `explains_decodeWord` for the word, the precedence of the exact words for the operands. -/
theorem decodedWordIsTheEncodingOfItsInstruction : Obligations.DecodedWordIsTheEncodingOfItsInstruction :=
  fun _ _ h => ⟨wellFormed_of_decodeWord h, encode_of_decodeWord h⟩

/-! ### The unknown words -/

/-- In each set the leading nibble asks for fixed trailing nibbles, and the word has none of them. -/
theorem Unknown.decodeWord_eq {r : DecodeReject} (h : Unknown op r) : decodeWord op = .error r := by
  have hge : 4096 ≤ op.toNat := by cases h <;> omega
  rw [decodeWord_of_ge hge, decodeLeading, nibble1_toNat]
  cases h with
  | of5XYN h => obtain ⟨h1, h4⟩ := h; simp [h1, nibble4_eq_zero_iff, h4]
  | of8XYN h =>
    obtain ⟨h1, h4⟩ := h
    simp only [List.mem_cons, List.not_mem_nil, or_false] at h4
    obtain h4 | h4 | h4 | h4 | h4 | h4 | h4 := h4 <;> simp [h1, decode8, h4]
  | of9XYN h => obtain ⟨h1, h4⟩ := h; simp [h1, nibble4_eq_zero_iff, h4]
  | ofEXNN h =>
    obtain ⟨h1, hnn⟩ := h
    simp only [h1, decodeE, fieldNN_toNat]
    split <;> simp_all
  | ofFXNN h =>
    obtain ⟨h1, hnn⟩ := h
    simp only [h1, decodeF, fieldNN_toNat]
    split <;> simp_all

theorem decodeWord_eq_error_iff {r : DecodeReject} : decodeWord op = .error r ↔ Unknown op r :=
  ⟨fun h => by simpa only [h, Explains] using explains_decodeWord op, Unknown.decodeWord_eq⟩

end

/-- Settles O5: the five names are the five cases of `Unknown`. -/
theorem unknownWordsAreExactlyTheFiveSets : Obligations.UnknownWordsAreExactlyTheFiveSets := by
  intro op
  simp only [decodeWord_eq_error_iff]
  refine ⟨⟨fun | .of5XYN h => h, .of5XYN⟩, ⟨fun | .of8XYN h => h, .of8XYN⟩, ⟨fun | .of9XYN h => h, .of9XYN⟩,
    ⟨fun | .ofEXNN h => h, .ofEXNN⟩, ⟨fun | .ofFXNN h => h, .ofFXNN⟩, fun r h => ?_⟩
  cases h <;> simp

/-! ### The rows of the opcode table -/

/-- The word has a row's match value under its mask (R49). -/
def matchesRow (op : Word) (row : Word × Word) : Bool := op &&& row.1 == row.2

theorem matchesRow_iff {op : Word} {row : Word × Word} : matchesRow op row = true ↔ op &&& row.1 = row.2 :=
  beq_iff_eq

theorem firstRow_eq_find? (op : Word) : firstRow op = opcodeRows.find? (matchesRow op) := rfl

open Laws.MatchesRow in
theorem matchesRow_encode (i : Instr) : matchesRow (encode i) (rowOf i) = true := by
  rw [matchesRow_iff]
  change Statement i
  cases i
  exacts [cls, ret, sys _, jp _, call _, seImm _ _, sneImm _ _, seReg _ _, ldImm _ _, addImm _ _, ldReg _ _,
    orReg _ _, andReg _ _, xorReg _ _, addReg _ _, subReg _ _, shr _ _, subn _ _, shl _ _, sneReg _ _, ldI _, jpV0 _,
    rnd _ _, drw _ _ _, skp _, sknp _, ldVxDt _, waitKey _, ldDtVx _, ldStVx _, addI _, ldF _, bcd _, storeRegs _,
    loadRegs _]

/-- The rows after those of the two exact words. -/
def leadingRows : List (Word × Word) := opcodeRows.drop 2

theorem rowOf_mem_leadingRows {i : Instr} (hcls : i ≠ .cls) (hret : i ≠ .ret) : rowOf i ∈ leadingRows := by
  cases i with
  | cls => exact absurd rfl hcls
  | ret => exact absurd rfl hret
  | _ => simp [rowOf, leadingRows, opcodeRows]

/-- Any word but the two exact ones is looked up in the rows after theirs. -/
theorem firstRow_of_ne {op : Word} (hE0 : op ≠ 0x00E0#16) (hEE : op ≠ 0x00EE#16) :
    firstRow op = leadingRows.find? (matchesRow op) := by
  have hexact : ∀ w : Word, op ≠ w → ¬ matchesRow op (0xFFFF#16, w) = true := fun w hw => by
    rwa [matchesRow_iff, and_FFFF]
  change ((0xFFFF#16, 0x00E0#16) :: (0xFFFF#16, 0x00EE#16) :: leadingRows).find? (matchesRow op) = _
  rw [List.find?_cons_of_neg (hexact _ hE0), List.find?_cons_of_neg (hexact _ hEE)]

/-- Two of these rows ask for different values of a bit that both their masks fix. -/
theorem leadingRows_pairwise : leadingRows.Pairwise fun row row' => row.2 &&& row'.1 ≠ row'.2 &&& row.1 := by
  decide

/-- The bits that both masks fix have the values of both rows, so a word matches one of these rows at most. -/
theorem leadingRow_unique {op : Word} {row row' : Word × Word} (hmem : row ∈ leadingRows)
    (hmem' : row' ∈ leadingRows) (h : matchesRow op row = true) (h' : matchesRow op row' = true) : row = row' := by
  have hagree : row.2 &&& row'.1 = row'.2 &&& row.1 := by
    rw [← matchesRow_iff.1 h, ← matchesRow_iff.1 h', BitVec.and_assoc, BitVec.and_assoc, BitVec.and_comm row.1]
  have : Std.Symm fun row row' : Word × Word => row.2 &&& row'.1 ≠ row'.2 &&& row.1 := ⟨fun _ _ => Ne.symm⟩
  by_contra hne
  exact leadingRows_pairwise.forall hmem hmem' hne hagree

theorem find?_leadingRows {op : Word} {row : Word × Word} (hmem : row ∈ leadingRows) (h : matchesRow op row = true) :
    leadingRows.find? (matchesRow op) = some row := by
  obtain ⟨row', hfind⟩ := Option.isSome_iff_exists.1 (List.find?_isSome.2 ⟨row, hmem, h⟩)
  rw [hfind, leadingRow_unique (List.mem_of_find?_eq_some hfind) hmem (List.find?_some hfind) h]

theorem firstRow_encode {i : Instr} (hi : i.wellFormed = true) : firstRow (encode i) = some (rowOf i) := by
  by_cases hcls : i = .cls
  · subst hcls; rfl
  by_cases hret : i = .ret
  · subst hret; rfl
  obtain ⟨hE0, hEE⟩ := encode_ne_exact hi hcls hret
  rw [firstRow_of_ne hE0 hEE, find?_leadingRows (rowOf_mem_leadingRows hcls hret) (matchesRow_encode i)]

/-- The rows as numbers: none has the leading and the trailing nibbles of an unknown word. -/
theorem Unknown.firstRow_eq {op : Word} {r : DecodeReject} (h : Unknown op r) : firstRow op = none := by
  rw [firstRow_eq_find?, List.find?_eq_none]
  simp only [opcodeRows, List.cons_append, List.nil_append, List.forall_mem_cons, List.not_mem_nil, false_imp_iff,
    implies_true, and_true, matchesRow_iff, ← BitVec.toNat_inj, BitVec.ofNat_eq_ofNat, BitVec.toNat_ofNat,
    and_F000_toNat, and_F00F_toNat, and_F0FF_toNat, and_FFFF]
  cases h with
  | of5XYN h | of9XYN h => omega
  | of8XYN h | ofEXNN h | ofFXNN h =>
    simp only [List.mem_cons, List.not_mem_nil, or_false] at h
    omega

/-- Settles O4: a word that decodes is the encoding of its instruction and has its row; an unknown word has none. -/
theorem decoderSelectsTheFirstMatchingRow : Obligations.DecoderSelectsTheFirstMatchingRow := by
  refine fun op => ⟨fun i h => ?_, fun r h => (decodeWord_eq_error_iff.1 h).firstRow_eq⟩
  rw [← encode_of_decodeWord h]
  exact firstRow_encode (wellFormed_of_decodeWord h)

/-! ### Words written out -/

/-- Settles O1: the decoder evaluated on the 17 words. -/
theorem wordsDecodeAsTheSpecWritesThem : Obligations.WordsDecodeAsTheSpecWritesThem := by
  unfold Obligations.WordsDecodeAsTheSpecWritesThem
  decide

end Sys2Proof

/-! ## The cycle

A cycle is its fetch, its handler on the advanced state, and `endCycle` (R56). Where PC and the timers are afterwards is
read off the handler's frame `after_respects`, and off the one write of each handler that is outside that frame. -/

namespace Sys2Proof.Machine

open Sys2Proof.Safety

variable {s t u : State}

/-! ### The fetch and the end of the cycle -/

/-- Settles O12: `wordOfBytes` weighs its first byte by 256. -/
theorem fetchIsBigEndianAtAnyPc : Obligations.FetchIsBigEndianAtAnyPc :=
  fun _ => wordOfBytes_toNat _ _

/-- Settles O11: `step` by the two kinds of cycle, a handler by `exec_eq`. -/
theorem cycleAlwaysAnswersANextState : Obligations.CycleAlwaysAnswersANextState := by
  refine ⟨fun s => ?_, fun i s => ⟨_, exec_eq i s⟩⟩
  cases hdec : decodeWord s.fetchWord with
  | ok i => exact ⟨_, step_of_decode hdec⟩
  | error r => exact ⟨_, step_of_reject hdec⟩

/-- A cycle ends the state its handler leaves (R56). -/
theorem step_eq_endCycle_of_exec {i : Instr} (hdec : decodeWord s.fetchWord = .ok i)
    (hexec : exec i s.advancePc = .next u) : step s = .next (endCycle u) := by
  rw [step_of_decode hdec, ← eq_after_of_exec hexec]

/-- Settles O10: the advance and the end of the cycle are the updates written out. -/
theorem stepRunsTheDecodedInstruction : Obligations.StepRunsTheDecodedInstruction :=
  fun _ _ hdec => ⟨fun _ => step_eq_endCycle_of_exec hdec, rfl, fun _ => rfl⟩

/-- A byte is above zero as a number exactly when it is not the byte zero. -/
theorem byte_ne_zero_iff (b : Byte) : b ≠ 0x00#8 ↔ 0 < b.toNat := by
  rw [Nat.pos_iff_ne_zero, ne_eq, ne_eq, ← BitVec.toNat_inj, BitVec.toNat_zero]

/-- Step 5 in numbers: both timers one lower, floored at zero, and the tone on when ST was above zero (R61, R62). -/
theorem endCycle_timers (u : State) :
    (endCycle u).dt.toNat = u.dt.toNat - 1 ∧ (endCycle u).st.toNat = u.st.toNat - 1 ∧
      (endCycle u).tone = decide (0 < u.st.toNat) :=
  ⟨decayed_toNat _, decayed_toNat _, decide_eq_decide.2 (byte_ne_zero_iff _)⟩

/-- Settles O14: both kinds of cycle are `endCycle u`, which writes the timers, the tone and the count of draws. -/
theorem timersDecayOncePerCycle : Obligations.TimersDecayOncePerCycle := by
  intro s u hu
  have hstep : step s = .next (endCycle u) := by
    cases hdec : decodeWord s.fetchWord with
    | ok i =>
      rw [hdec] at hu
      exact step_eq_endCycle_of_exec hdec hu
    | error r =>
      rw [hdec] at hu
      rw [step_of_reject hdec, hu]
      rfl
  obtain ⟨hdt, hst, htone⟩ := endCycle_timers u
  exact ⟨endCycle u, hstep, hdt, hst, htone, rfl⟩

/-! ### Timers over a whole cycle -/

/-- The timers after a cycle, given those its handler leaves. -/
theorem endCycle_timers_of_eq {dt st : Byte} (hdt : u.dt = dt) (hst : u.st = st) :
    (endCycle u).dt.toNat = dt.toNat - 1 ∧ (endCycle u).st.toNat = st.toNat - 1 ∧
      (endCycle u).tone = decide (0 < st.toNat) := by
  subst hdt hst
  exact endCycle_timers u

theorem after_dt {i : Instr} (h : (accessMatrix i).dt = false) (s : State) : (after i s).dt = s.dt := by
  obtain ⟨-, -, -, -, -, hdt, -⟩ := after_respects i s
  exact hdt h

theorem after_st {i : Instr} (h : (accessMatrix i).st = false) (s : State) : (after i s).st = s.st := by
  obtain ⟨-, -, -, -, -, -, hst, -⟩ := after_respects i s
  exact hst h

/-- Settles O15: `FX15` and `FX18` load one timer and leave the other; every other handler leaves both, and so does
the UnknownOpcode handling. -/
theorem timersMoveOnlyByDecayOrTheirOwnLoad : Obligations.TimersMoveOnlyByDecayOrTheirOwnLoad := by
  intro s t hstep
  obtain ⟨i, hdec, rfl⟩ | ⟨r, hrej, rfl⟩ := step_cases hstep
  · rw [hdec]
    cases i with
    | ldDtVx x => exact endCycle_timers_of_eq (dt := s.getV x) rfl rfl
    | ldStVx x => exact endCycle_timers_of_eq (st := s.getV x) rfl rfl
    | _ => exact endCycle_timers_of_eq (after_dt rfl s.advancePc) (after_st rfl s.advancePc)
  · rw [hrej]
    exact endCycle_timers_of_eq (u := raise .unknownOpcode s.advancePc) rfl rfl

/-! ### The program counter over a whole cycle -/

/-- A handler without a write of PC in the access matrix leaves the advanced value (R58). -/
theorem after_pc {i : Instr} (h : (accessMatrix i).pc = false) (s : State) : (after i s).pc = s.pc := by
  obtain ⟨-, hpc, -⟩ := after_respects i s
  exact hpc h

theorem State.advancePc_pc_toNat (s : State) : s.advancePc.pc.toNat = (s.pc.toNat + 2) % 4096 := mod4096_toNat _

/-- A skip on the advanced PC: two words on when taken, the next word when not (R70). -/
theorem State.skipIf_advancePc_pc_toNat (s : State) {taken : Bool} {p : Prop} [Decidable p] (h : taken = true ↔ p) :
    (s.advancePc.skipIf taken).pc.toNat = if p then (s.pc.toNat + 4) % 4096 else (s.pc.toNat + 2) % 4096 := by
  rw [State.skipIf_eq]
  simp only [← h, State.advancePc_pc]
  split
  · rw [mod4096_toNat, mod4096_toNat]
    omega
  · exact mod4096_toNat _

/-- Undoing the advance gives back PC, reduced (R103). -/
theorem State.rollBackPc_advancePc_pc_toNat (s : State) :
    s.advancePc.rollBackPc.pc.toNat = s.pc.toNat % 4096 := by
  rw [State.rollBackPc_pc, mod4096_toNat, State.advancePc_pc_toNat]
  omega

/-- The key-wait on the advanced PC: the next word with the key down, the word itself with the key up (R103). -/
theorem after_waitKey_advancePc_pc_toNat (x : Reg) (s : State) :
    (after (.waitKey x) s.advancePc).pc.toNat =
      if s.keyDown x = true then (s.pc.toNat + 2) % 4096 else s.pc.toNat % 4096 := by
  rw [after_waitKey]
  change BitVec.toNat (if s.keyDown x = true then _ else _) = _
  split
  · rw [State.advancePc_pc_toNat, State.rollBackPc_advancePc_pc_toNat]
    omega
  · exact s.rollBackPc_advancePc_pc_toNat

/-- A call: the target, or no jump with a full stack (R67, R109). -/
theorem State.pushAndJump_pc (s : State) (target : Word) :
    (s.pushAndJump target).pc = if s.sp.val = 16 then s.pc else target := by
  obtain ⟨hfull, heq⟩ | ⟨hlt, heq⟩ := s.pushAndJump_cases target <;> rw [heq]
  · rw [if_pos hfull, raise_pc]
  · rw [if_neg hlt.ne]

/-- A return: the slot below the stack pointer, or no jump with an empty stack (R65, R110). -/
theorem State.pop_pc (s : State) :
    s.pop.pc = if _ : s.sp.val = 0 then s.pc else s.getStack ⟨s.sp.val - 1, by omega⟩ := by
  obtain ⟨hempty, heq⟩ | ⟨hpos, heq⟩ := s.pop_cases <;> rw [heq]
  · rw [dif_pos hempty, raise_pc]
  · rw [dif_neg hpos.ne']

/-- Settles O17: the flow instructions, the skips and the key-wait by what each does to the advanced PC; every other
handler, and the UnknownOpcode handling, leaves it. -/
theorem programCounterAfterEveryKindOfCycle : Obligations.ProgramCounterAfterEveryKindOfCycle := by
  intro s t hstep
  obtain ⟨i, hdec, rfl⟩ | ⟨r, hrej, rfl⟩ := step_cases hstep
  · rw [hdec]
    cases i with
    | ret =>
      have hpop := s.advancePc.pop_pc
      by_cases hempty : s.sp.val = 0
      · simp only [dif_pos hempty]
        exact (congrArg BitVec.toNat (hpop.trans (dif_pos hempty))).trans s.advancePc_pc_toNat
      · simp only [dif_neg hempty]
        exact hpop.trans (dif_neg hempty)
    | jp nnn => exact zext16_toNat nnn
    | call nnn =>
      change (s.advancePc.pushAndJump (zext16 nnn)).pc.toNat = _
      rw [State.pushAndJump_pc, apply_ite BitVec.toNat, zext16_toNat, State.advancePc_pc_toNat]
      rfl
    | jpV0 nnn => exact mod4096_toNat _
    | seImm x nn => exact s.skipIf_advancePc_pc_toNat beq_iff_eq
    | sneImm x nn => exact s.skipIf_advancePc_pc_toNat bne_iff_ne
    | seReg x y => exact s.skipIf_advancePc_pc_toNat beq_iff_eq
    | sneReg x y => exact s.skipIf_advancePc_pc_toNat bne_iff_ne
    | skp x => exact s.skipIf_advancePc_pc_toNat Iff.rfl
    | sknp x => exact s.skipIf_advancePc_pc_toNat (Bool.not_eq_true' _).to_iff
    | waitKey x => exact after_waitKey_advancePc_pc_toNat x s
    | _ => exact (congrArg BitVec.toNat (after_pc rfl s.advancePc)).trans s.advancePc_pc_toNat
  · rw [hrej]
    exact s.advancePc_pc_toNat

/-! ### Parked and waiting cycles -/

/-- The next cycle is a jump to its own address, or a key-wait whose key is up (R63, R103). -/
def Idling (s : State) : Prop :=
  (∃ nnn, decodeWord s.fetchWord = .ok (.jp nnn) ∧ s.pc.toNat = nnn.toNat) ∨
    (∃ x, decodeWord s.fetchWord = .ok (.waitKey x) ∧ s.pc.toNat < 4096 ∧ s.keyDown x = false)

/-- Neither the timers nor the count of draws decide whether a cycle idles. -/
theorem idling_idled (h : Idling s) (n : Nat) : Idling (idled n s) := h

/-- Putting PC back undoes the advance. -/
theorem State.advancePc_withPc {p : Word} (h : p.toNat = s.pc.toNat) : { s.advancePc with pc := p } = s := by
  obtain rfl : p = s.pc := BitVec.eq_of_toNat_eq h
  rfl

theorem after_jp_advancePc {nnn : Addr12} (h : s.pc.toNat = nnn.toNat) : after (.jp nnn) s.advancePc = s :=
  State.advancePc_withPc ((zext16_toNat nnn).trans h.symm)

theorem after_waitKey_advancePc {x : Reg} (hpc : s.pc.toNat < 4096) (hkey : s.keyDown x = false) :
    after (.waitKey x) s.advancePc = s := by
  have hup : s.advancePc.keyDown x = false := hkey
  rw [after_waitKey, hup]
  exact State.advancePc_withPc (s.rollBackPc_advancePc_pc_toNat.trans (Nat.mod_eq_of_lt hpc))

/-- A timer after one decay, written as `idled` writes it (R61). -/
theorem decayed_eq_ofNat (timer : Byte) : decayed timer = BitVec.ofNat 8 (timer.toNat - 1) := by
  apply BitVec.eq_of_toNat_eq
  rw [decayed_toNat, BitVec.toNat_ofNat]
  omega

/-- The end of the cycle and nothing else is one idle cycle. -/
theorem endCycle_eq_idled (s : State) : endCycle s = idled 1 s := by
  obtain ⟨-, -, htone⟩ := endCycle_timers s
  change { endCycle s with dt := decayed s.dt, st := decayed s.st, tone := (endCycle s).tone } = _
  rw [decayed_eq_ofNat, decayed_eq_ofNat, htone]
  rfl

/-- An idling cycle does nothing but end. -/
theorem Idling.step_eq (h : Idling s) : step s = .next (idled 1 s) := by
  rw [← endCycle_eq_idled]
  obtain ⟨nnn, hdec, hpc⟩ | ⟨x, hdec, hpc, hkey⟩ := h
  · rw [step_of_decode hdec, after_jp_advancePc hpc]
  · rw [step_of_decode hdec, after_waitKey_advancePc hpc hkey]

theorem idled_zero (s : State) : idled 0 s = s := by
  simp [idled]

/-- A timer that decays once and then `n` times. -/
theorem ofNat_sub_one_sub (timer : Byte) (n : Nat) :
    BitVec.ofNat 8 ((BitVec.ofNat 8 (timer.toNat - 1)).toNat - n) = BitVec.ofNat 8 (timer.toNat - (n + 1)) := by
  congr 1
  rw [BitVec.toNat_ofNat]
  omega

/-- The tone of the last of `n + 1` idle cycles: on when ST lasted that long (R62). -/
theorem idled_idled_one_tone (n : Nat) (s : State) :
    (idled n (idled 1 s)).tone = decide (n + 1 ≤ s.st.toNat) := by
  cases n with
  | zero => rfl
  | succ m =>
    change decide (m + 1 ≤ (BitVec.ofNat 8 (s.st.toNat - 1)).toNat) = _
    rw [BitVec.toNat_ofNat, decide_eq_decide]
    omega

/-- One idle cycle and `n` more are `n + 1`. -/
theorem idled_idled_one (n : Nat) (s : State) : idled n (idled 1 s) = idled (n + 1) s := by
  change { s with
    dt := BitVec.ofNat 8 ((BitVec.ofNat 8 (s.dt.toNat - 1)).toNat - n)
    st := BitVec.ofNat 8 ((BitVec.ofNat 8 (s.st.toNat - 1)).toNat - n)
    tone := (idled n (idled 1 s)).tone
    draws := s.draws + 1 + n } = _
  rw [ofNat_sub_one_sub, ofNat_sub_one_sub, idled_idled_one_tone, Nat.add_right_comm]
  rfl

/-- A run takes its first step and goes on from there. -/
theorem run_succ_of_step {M : Host.Core} {s t : M.State} (hstep : M.step s = .next t) (n : Nat) :
    M.run (n + 1) s = M.run n t := by
  simp only [Host.Core.run, hstep]

/-- A run of idling cycles, by induction over its length: each leaves a state that idles. -/
theorem Idling.run_eq (h : Idling s) (n : Nat) : core.run n s = .next (idled n s) := by
  induction n generalizing s with
  | zero => exact congrArg Host.Outcome.next (idled_zero s).symm
  | succ n ih =>
    calc core.run (n + 1) s
      _ = core.run n (idled 1 s) := run_succ_of_step (M := core) h.step_eq n
      _ = .next (idled n (idled 1 s)) := ih (idling_idled h 1)
      _ = .next (idled (n + 1) s) := by rw [idled_idled_one]

/-- Settles O48: the hypothesis is `Idling`, whose runs of any length are `Idling.run_eq`. -/
theorem parkedAndWaitingCyclesOnlyDecayTheTimers : Obligations.ParkedAndWaitingCyclesOnlyDecayTheTimers :=
  fun n _ h => Idling.run_eq h n

end Sys2Proof.Machine

/-! ## Control transfer

What a claim about an instruction asks for, its encoding and its completion, is read off `encode` and `after`. The
stack with room and the stack at its end are one equation each for the push and for the pop. -/

namespace Sys2Proof.Safety

open Sys2Proof.Machine

/-- A number is a word of `i` when it is the number of its encoding. -/
theorem encodedAs_of_encode {i : Instr} {w : Nat} (hi : i.wellFormed = true) (hw : (encode i).toNat = w) :
    EncodedAs w i := by
  subst hw
  refine ⟨(encode i).isLt, ?_⟩
  rw [BitVec.ofNat_toNat, BitVec.setWidth_eq, decodeWord_encode hi]

/-- An instruction completes when the state `after` it is as claimed. -/
theorem completes_of_after {i : Instr} {s t : State} {f : Footprint} {post : State → Prop} (ht : after i s = t)
    (hframe : Respects f s t) (hpost : post t) : Completes i s f post :=
  ⟨t, ht ▸ exec_eq i s, hframe, hpost⟩

end Sys2Proof.Safety

namespace Sys2Proof.Machine

open Sys2Proof.Safety

variable {s t : State}

/-! ### The push and the pop -/

theorem State.pushAndJump_of_lt (h : s.sp.val < 16) (target : Word) : s.pushAndJump target =
    { s with stack := s.stack.set s.sp.val s.pc h, sp := ⟨s.sp.val + 1, by omega⟩, pc := target } := by
  rw [State.pushAndJump, dif_neg h.ne]

theorem State.pushAndJump_of_full (h : s.sp.val = 16) (target : Word) :
    s.pushAndJump target = raise .stackOverflow s := by
  rw [State.pushAndJump, dif_pos h]

theorem State.pop_of_pos (h : 0 < s.sp.val) : s.pop =
    { s with sp := ⟨s.sp.val - 1, by omega⟩, pc := s.getStack ⟨s.sp.val - 1, by omega⟩ } := by
  rw [State.pop, dif_neg h.ne']

theorem State.pop_of_empty (h : s.sp.val = 0) : s.pop = raise .stackUnderflow s := by
  rw [State.pop, dif_pos h]

/-- A push writes the slot that the pointer names, and no other (R67). -/
theorem State.getStack_pushAndJump (h : s.sp.val < 16) (target : Word) (k : Fin 16) :
    (s.pushAndJump target).getStack k = if k.val = s.sp.val then s.pc else s.getStack k := by
  rw [State.pushAndJump_of_lt h]
  simp only [State.getStack, Fin.getElem_fin, Vector.getElem_set, eq_comm]

/-- A pop from the stack that a push left takes back what was pushed (R65, R67). -/
theorem State.pop_of_pushed {target : Word} (h : s.sp.val < 16) (hstack : t.stack = (s.pushAndJump target).stack)
    (hsp : t.sp = (s.pushAndJump target).sp) :
    t.pop.pc = s.pc ∧ t.pop.sp = s.sp ∧ ∀ k : Fin 16, k.val ≠ s.sp.val → t.pop.getStack k = s.getStack k := by
  have hval : t.sp.val = s.sp.val + 1 := by rw [hsp, State.pushAndJump_of_lt h]
  have hslot (k : Fin 16) : t.getStack k = if k.val = s.sp.val then s.pc else s.getStack k := by
    rw [← State.getStack_pushAndJump h target, State.getStack, hstack, State.getStack]
  rw [State.pop_of_pos (by omega)]
  refine ⟨?_, Fin.ext ?_, fun k hk => (hslot k).trans (if_neg hk)⟩
  · rw [hslot, if_pos (by simp [hval])]
  · simp [hval]

/-! ### The obligations -/

/-- Settles O25: the push with room is three allowed writes, the push on a full stack raises the flag. -/
theorem callPushesAndJumpsOrReportsOverflow : Obligations.CallPushesAndJumpsOrReportsOverflow := by
  refine fun nnn s => ⟨encodedAs_of_encode rfl (formatNNN_toNat _ nnn), fun hroom => ?_, fun hfull => ?_⟩
  · refine completes_of_after (State.pushAndJump_of_lt hroom (zext16 nnn)) ?_ ⟨rfl, zext16_toNat nnn, fun k => ?_⟩
    · exact (((Respects.refl _ s).withStack rfl (s.stack.set s.sp.val s.pc hroom)).withSp rfl
        ⟨s.sp.val + 1, by omega⟩).withPc rfl (zext16 nnn)
    · rw [← State.pushAndJump_of_lt hroom, State.getStack_pushAndJump hroom]
  · exact completes_of_after (State.pushAndJump_of_full hfull (zext16 nnn))
      ((Respects.refl _ s).raiseOverflow rfl) (raise_diag s _)

/-- Settles O26: the pop of a call is two allowed writes, the pop of an empty stack raises the flag. -/
theorem returnPopsOrReportsUnderflow : Obligations.ReturnPopsOrReportsUnderflow := by
  refine fun s => ⟨encodedAs_of_encode (i := .ret) rfl rfl, fun hpos => ?_, fun hempty => ?_⟩
  · refine completes_of_after (State.pop_of_pos hpos) ?_ ⟨Nat.sub_add_cancel hpos, fun k hk => ?_, rfl⟩
    · exact ((Respects.refl _ s).withSp rfl ⟨s.sp.val - 1, by omega⟩).withPc rfl _
    · exact congrArg s.getStack (Fin.ext hk.symm)
  · exact completes_of_after (State.pop_of_empty hempty) ((Respects.refl _ s).raiseUnderflow rfl) (raise_diag s _)

/-- Settles O27: between the push and the pop the cycles only end and advance, which the stack does not see. -/
theorem callThenReturnComesBack : Obligations.CallThenReturnComesBack := by
  intro s t nnn hcall hroom hstep hret
  rw [step_of_decode hcall] at hstep
  obtain rfl := Host.Outcome.next.inj hstep
  have hroom' : s.advancePc.sp.val < 16 := hroom
  refine ⟨_, step_of_decode hret, ?_⟩
  obtain ⟨hpc, hsp, hslots⟩ := State.pop_of_pushed (target := zext16 nnn) hroom'
    (t := (endCycle (after (.call nnn) s.advancePc)).advancePc) rfl rfl
  exact ⟨(congrArg BitVec.toNat hpc).trans s.advancePc_pc_toNat, hsp, hslots⟩

/-- Settles O23: the encoding of `0NNN` is its operand, and the two operands given up are those of the exact words. -/
theorem sysDoesNothing : Obligations.SysDoesNothing := by
  refine ⟨fun w hw hE0 hEE => ?_, fun nnn s => ⟨?_, step_of_decode⟩⟩
  · have hnum : (BitVec.ofNat 12 w).toNat = w := by rw [BitVec.toNat_ofNat, Nat.mod_eq_of_lt hw]
    have hne (nnn : Addr12) (h : w ≠ nnn.toNat) : Instr.sys (BitVec.ofNat 12 w) ≠ .sys nnn := by
      intro heq
      rw [← Instr.sys.inj heq, hnum] at h
      exact h rfl
    refine encodedAs_of_encode ((Instr.wellFormed_iff _).2 ⟨hne _ hE0, hne _ hEE⟩) ?_
    calc (formatNNN 0x0#4 (BitVec.ofNat 12 w)).toNat
      _ = 0 * 4096 + (BitVec.ofNat 12 w).toNat := formatNNN_toNat _ _
      _ = w := by rw [hnum, Nat.zero_mul, Nat.zero_add]
  · exact completes_of_after rfl (Respects.refl _ s) rfl

/-- Settles O24: one write of PC each, with `zext16` and `mod4096` as numbers. -/
theorem jumpsLoadTheProgramCounter : Obligations.JumpsLoadTheProgramCounter := by
  refine fun nnn s => ⟨encodedAs_of_encode rfl (formatNNN_toNat _ nnn), ?_,
    encodedAs_of_encode rfl (formatNNN_toNat _ nnn), ?_⟩
  · exact completes_of_after rfl ((Respects.refl _ s).withPc rfl _) (zext16_toNat nnn)
  · exact completes_of_after rfl ((Respects.refl _ s).withPc rfl _) (mod4096_toNat _)

end Sys2Proof.Machine

/-! ## Register skips

A skip is one allowed write of PC. It is said once, for any instruction whose handler is `skipIf` on a test: the test
is the comparison itself, or its negation. -/

namespace Sys2Proof.Machine

open Sys2Proof.Safety

variable {i : Instr} {s : State} {taken : Bool} {p : Prop} [Decidable p]

/-- A taken skip moves PC on by one word more, any other keeps it (R70). -/
theorem State.skipIf_pc_toNat (s : State) (h : taken = true ↔ p) :
    (s.skipIf taken).pc.toNat = if p then (s.pc.toNat + 2) % 4096 else s.pc.toNat := by
  rw [State.skipIf_eq]
  simp only [← h]
  split
  · exact mod4096_toNat _
  · rfl

/-- An instruction that skips when its comparison holds (R71, R73). -/
theorem completes_skipIf (hafter : after i s = s.skipIf taken) (h : taken = true ↔ p) :
    Completes i s { pc := true } (fun t => t.pc.toNat = if p then (s.pc.toNat + 2) % 4096 else s.pc.toNat) :=
  completes_of_after hafter ((Respects.refl _ s).skipIf rfl taken) (s.skipIf_pc_toNat h)

/-- An instruction that skips when its comparison fails (R72, R74). -/
theorem completes_skipUnless (hafter : after i s = s.skipIf taken) (h : taken = true ↔ ¬p) :
    Completes i s { pc := true } (fun t => t.pc.toNat = if p then s.pc.toNat else (s.pc.toNat + 2) % 4096) := by
  simpa only [ite_not] using completes_skipIf hafter h

/-- Settles O28: each of the four is a skip on its comparison or on the negation of it. -/
theorem registerSkipsAddTwoWhenTheComparisonHolds : Obligations.RegisterSkipsAddTwoWhenTheComparisonHolds := by
  refine fun x y nn s => ⟨encodedAs_of_encode rfl (formatXNN_toNat _ x nn), ?seImm,
    encodedAs_of_encode rfl (formatXNN_toNat _ x nn), ?sneImm,
    encodedAs_of_encode rfl (formatXYS_toNat _ x y 0x0#4), ?seReg,
    encodedAs_of_encode rfl (formatXYS_toNat _ x y 0x0#4), ?sneReg⟩
  case seImm => exact completes_skipIf rfl beq_iff_eq
  case sneImm => exact completes_skipUnless rfl bne_iff_ne
  case seReg => exact completes_skipIf rfl beq_iff_eq
  case sneReg => exact completes_skipUnless rfl bne_iff_ne

end Sys2Proof.Machine

/-! ## Arithmetic and logic

An instruction of this family is one write of VX, or the write of VF and then of VX that `flagThenResult` is. Its frame
and what the two registers then hold is said once for each of the two; the rest is what the written bytes are as
numbers. -/

namespace Sys2Proof.Machine

open Sys2Proof.Safety

/-! ### The flags as numbers -/

section

variable (a b : Byte)

/-- The carry as the byte that VF takes (R81). -/
theorem flagByte_carryOut : flagByte (carryOut a b) = if 255 < a.toNat + b.toNat then 0x01#8 else 0x00#8 := by
  simp only [flagByte, carryOut, gt_iff_lt, decide_eq_true_eq]

/-- The not-borrow as the byte that VF takes, 1 on equality (R82, R84). -/
theorem flagByte_notBorrow : flagByte (notBorrow a b) = if a.toNat < b.toNat then 0x00#8 else 0x01#8 := by
  simp only [flagByte, notBorrow, Bool.not_eq_true', decide_eq_false_iff_not, ite_not]

/-- The bit a right shift drops is the remainder of the halving (R83). -/
theorem flagByte_droppedLow_toNat : (flagByte (droppedLow a)).toNat = a.toNat % 2 := by
  rw [flagByte_toNat, droppedLow, BitVec.getLsbD, Nat.toNat_testBit, pow_zero, Nat.div_one]

/-- The bit a left shift drops says whether the byte is 128 or more (R85). -/
theorem flagByte_droppedHigh_toNat : (flagByte (droppedHigh a)).toNat = a.toNat / 128 := by
  rw [flagByte_toNat, droppedHigh, BitVec.getLsbD, Nat.toNat_testBit]
  omega

end

/-! ### Encoding and completion -/

/-- The sub-opcode of a word is added to its leading nibble, and the registers to both (R47). -/
theorem encodedAs_of_formatXYS {i : Instr} {n1 sub : BitVec 4} {x y : Reg} {base : Nat} (hi : i.wellFormed = true)
    (henc : encode i = formatXYS n1 x y sub) (hbase : n1.toNat * 4096 + sub.toNat = base) :
    EncodedAs (base + x.val * 256 + y.val * 16) i := by
  refine encodedAs_of_encode hi ?_
  rw [henc, formatXYS_toNat, ← hbase]
  ring

section

variable {i : Instr} {s t : State} {f : Footprint} {x : Reg} {post : State → Prop}

/-- An instruction that writes VX and nothing else. -/
theorem completes_setV {b : Byte} (hafter : after i s = s.setV x b) (hpost : ∀ t, t.getV x = b → post t) :
    Completes i s (onlyReg x) post :=
  completes_of_after hafter ((Respects.refl _ s).setV (beq_self_eq_true x) b) (hpost _ (s.getV_setV_same x b))

/-- A flag instruction: VX holds the result, and VF the flag unless it is VX (R60). -/
theorem completes_flagThenResult {flag : Bool} {r : Byte} (hafter : after i s = s.flagThenResult flag x r)
    (hpost : ∀ t, t.getV x = r → (x ≠ 15 → t.getV 15 = flagByte flag) → post t) :
    Completes i s (regAndFlag x) post := by
  refine completes_of_after hafter ((Respects.refl _ s).flagThenResult ?_ ?_ flag r) (hpost _ ?_ fun hx => ?_)
  · simp [regAndFlag]
  · simp [regAndFlag]
  · rw [State.getV_flagThenResult, if_pos rfl]
  · exact (s.getV_flagThenResult flag x 15 r).trans (if_neg hx.symm)

/-- What an instruction completes with holds of whatever state `exec` answers. -/
theorem post_of_exec (hexec : exec i s = .next t) (h : Completes i s f post) : post t := by
  obtain ⟨u, hu, -, hpost⟩ := h
  obtain rfl := Host.Outcome.next.inj (hu.symm.trans hexec)
  exact hpost

end

/-! ### Subtraction -/

/-- Both subtractions, which differ in the order of their operands `a` and `b` (R82, R84). -/
theorem completes_subtract {i : Instr} {s : State} {x : Reg} {a b : Byte}
    (hafter : after i s = s.flagThenResult (notBorrow a b) x (a - b)) :
    Completes i s (regAndFlag x) (fun t => (t.getV x).toNat = (256 + a.toNat - b.toNat) % 256 ∧
      (x ≠ 15 → t.getV 15 = if a.toNat < b.toNat then 0x00#8 else 0x01#8)) := by
  refine completes_flagThenResult hafter fun t hresult hflag => ⟨?_, fun hx => ?_⟩
  · rw [hresult, BitVec.toNat_sub]
    omega
  · rw [hflag hx, flagByte_notBorrow]

/-- The not-borrow is the 256 that the difference did not have to borrow (R87). -/
theorem difference_add_notBorrow {a b r flag : Byte} (hr : r.toNat = (256 + a.toNat - b.toNat) % 256)
    (hflag : flag = if a.toNat < b.toNat then 0x00#8 else 0x01#8) :
    r.toNat + 256 * flag.toNat + b.toNat = a.toNat + 256 := by
  rw [hr, hflag]
  split <;> rw [BitVec.toNat_ofNat] <;> omega

/-! ### The obligations -/

/-- Settles O31: the flag instruction whose flag is the carry. -/
theorem addWritesSumAndCarry : Obligations.AddWritesSumAndCarry := by
  refine fun x y s => ⟨encodedAs_of_formatXYS rfl rfl rfl,
    completes_flagThenResult rfl fun t hresult hflag => ⟨?_, fun hx => ?_⟩⟩
  · rw [hresult, BitVec.toNat_add]
  · rw [hflag hx, flagByte_carryOut]

/-- Settles O32: one subtraction in both orders of the operands. -/
theorem subtractWritesDifferenceAndNotBorrow : Obligations.SubtractWritesDifferenceAndNotBorrow :=
  fun _ _ _ => ⟨encodedAs_of_formatXYS rfl rfl rfl, completes_subtract rfl,
    encodedAs_of_formatXYS rfl rfl rfl, completes_subtract rfl⟩

/-- Settles O33: a shift right halves, a shift left doubles, and the dropped bit is what that loses. -/
theorem shiftsMoveOneBitIntoVf : Obligations.ShiftsMoveOneBitIntoVf := by
  refine fun x y s => ⟨encodedAs_of_formatXYS rfl rfl rfl, ?shr, encodedAs_of_formatXYS rfl rfl rfl, ?shl⟩
  case shr =>
    refine completes_flagThenResult rfl fun t hresult hflag => ⟨?_, fun hx => ?_⟩
    · rw [hresult, BitVec.toNat_ushiftRight, Nat.shiftRight_eq_div_pow, pow_one]
    · rw [hflag hx, flagByte_droppedLow_toNat]
  case shl =>
    refine completes_flagThenResult rfl fun t hresult hflag => ⟨?_, fun hx => ?_⟩
    · rw [hresult, BitVec.toNat_shiftLeft, Nat.shiftLeft_eq, pow_one]
    · rw [hflag hx, flagByte_droppedHigh_toNat]

/-- Settles O34: flag and result are those of O31 to O33, and what is left is arithmetic. -/
theorem flagAndResultTogetherAreExact : Obligations.FlagAndResultTogetherAreExact := by
  intro x y s t hx
  obtain ⟨-, hadd⟩ := addWritesSumAndCarry x y s
  obtain ⟨-, hsub, -, hsubn⟩ := subtractWritesDifferenceAndNotBorrow x y s
  obtain ⟨-, hshr, -, hshl⟩ := shiftsMoveOneBitIntoVf x y s
  refine ⟨fun h => ?add, fun h => ?sub, fun h => ?subn, fun h => ?shr, fun h => ?shl⟩
  case add =>
    obtain ⟨hresult, hflag⟩ := post_of_exec h hadd
    rw [hresult, hflag hx]
    split <;> rw [BitVec.toNat_ofNat] <;> omega
  case sub =>
    obtain ⟨hresult, hflag⟩ := post_of_exec h hsub
    exact difference_add_notBorrow hresult (hflag hx)
  case subn =>
    obtain ⟨hresult, hflag⟩ := post_of_exec h hsubn
    exact difference_add_notBorrow hresult (hflag hx)
  case shr =>
    obtain ⟨hresult, hflag⟩ := post_of_exec h hshr
    rw [hresult, hflag hx, Nat.div_add_mod]
  case shl =>
    obtain ⟨hresult, hflag⟩ := post_of_exec h hshl
    rw [hresult, hflag hx]
    omega

/-- Settles O29: one write of VX each. -/
theorem immediateLoadAndAdd : Obligations.ImmediateLoadAndAdd := by
  refine fun x nn s => ⟨encodedAs_of_encode rfl (formatXNN_toNat _ x nn), completes_setV rfl fun t hresult => hresult,
    encodedAs_of_encode rfl (formatXNN_toNat _ x nn), completes_setV rfl fun t hresult => ?_⟩
  rw [hresult, BitVec.toNat_add]

/-- Settles O30: one write of VX each, whose byte is read bit by bit. -/
theorem copyAndLogicWriteNoFlag : Obligations.CopyAndLogicWriteNoFlag := by
  refine fun x y s => ⟨encodedAs_of_formatXYS rfl rfl rfl, ?copy, encodedAs_of_formatXYS rfl rfl rfl, ?or,
    encodedAs_of_formatXYS rfl rfl rfl, ?and, encodedAs_of_formatXYS rfl rfl rfl, ?xor⟩
  case copy => exact completes_setV rfl fun t hresult => hresult
  case or => exact completes_setV rfl fun t hresult j _ => by rw [hresult, BitVec.getLsbD_or]
  case and => exact completes_setV rfl fun t hresult j _ => by rw [hresult, BitVec.getLsbD_and]
  case xor => exact completes_setV rfl fun t hresult j _ => by rw [hresult, BitVec.getLsbD_xor]

/-- Settles O35: one write of VX, and a masked byte masked with the complement is zero. -/
theorem randomByteIsMasked : Obligations.RandomByteIsMasked := by
  refine fun x nn s => ⟨encodedAs_of_encode rfl (formatXNN_toNat _ x nn),
    completes_setV rfl fun t hresult => ⟨hresult, ?_⟩, fun draw => s.getV_setV_same x (draw &&& nn)⟩
  rw [hresult, BitVec.and_assoc, BitVec.and_not_self]
  exact BitVec.and_zero

end Sys2Proof.Machine

/-! ## Index register and memory transfer

The statements of this family name the footprint that the access matrix gives the instruction, so its frame is
`after_respects` and only what it writes is left to show: for `FX33`, `FX55` and `FX65` one register or byte at a time,
at effective addresses that do not meet. -/

namespace Sys2Proof.Machine

open Sys2Proof.Safety

/-! ### Encoding and completion -/

/-- The sub-opcode of a word is added to its leading nibble, and the register to both (R47). -/
theorem encodedAs_of_formatXNN {i : Instr} {n1 : BitVec 4} {sub : Byte} {x : Reg} {base : Nat}
    (hi : i.wellFormed = true) (henc : encode i = formatXNN n1 x sub) (hbase : n1.toNat * 4096 + sub.toNat = base) :
    EncodedAs (base + x.val * 256) i := by
  refine encodedAs_of_encode hi ?_
  rw [henc, formatXNN_toNat, ← hbase]
  ring

/-- Within the footprint of the access matrix an instruction completes with whatever holds after it. -/
theorem completes_accessMatrix {i : Instr} {s : State} {post : State → Prop} (h : post (after i s)) :
    Completes i s (accessMatrix i) post :=
  completes_of_after rfl (after_respects i s) h

/-! ### FX33 -/

/-- Within one turn of memory, effective addresses meet only at the same offset (R35). -/
theorem State.effAddr_eq_iff (s : State) {j k : Nat} (hj : j < 4096) (hk : k < 4096) :
    s.effAddr j = s.effAddr k ↔ j = k :=
  ⟨s.effAddr_inj hj hk, congrArg s.effAddr⟩

/-- The three bytes that `FX33` leaves at I, I + 1 and I + 2: no later store reaches the address of an earlier one
(R91). -/
theorem State.storeBcd_digits (s : State) (vx : Byte) :
    (s.storeBcd vx).memRead (s.effAddr 0) = bcdHundreds vx ∧ (s.storeBcd vx).memRead (s.effAddr 1) = bcdTens vx ∧
      (s.storeBcd vx).memRead (s.effAddr 2) = bcdOnes vx := by
  simp [State.storeBcd_memRead, State.effAddr_eq_iff]

section

variable (vx : Byte)

theorem bcdHundreds_toNat : (bcdHundreds vx).toNat = vx.toNat / 100 := by
  rw [bcdHundreds, BitVec.toNat_ofNat]
  omega

theorem bcdTens_toNat : (bcdTens vx).toNat = vx.toNat / 10 % 10 := by
  rw [bcdTens, BitVec.toNat_ofNat]
  omega

theorem bcdOnes_toNat : (bcdOnes vx).toNat = vx.toNat % 10 := by
  rw [bcdOnes, BitVec.toNat_ofNat]
  omega

end

/-- Settles O37: the three stored bytes are the digits of VX, which are bounded and make up a byte by arithmetic. -/
theorem bcdStoresThreeDecimalDigits : Obligations.BcdStoresThreeDecimalDigits := by
  refine fun x s => ⟨fun _ _ => rfl, encodedAs_of_formatXNN rfl rfl rfl, completes_accessMatrix ?_⟩
  obtain ⟨hhundreds, htens, hones⟩ := s.storeBcd_digits (s.getV x)
  have hafter : after (.bcd x) s = s.storeBcd (s.getV x) := rfl
  rw [hafter, hhundreds, htens, hones, bcdHundreds_toNat, bcdTens_toNat, bcdOnes_toNat]
  exact ⟨rfl, rfl, rfl, by omega, by omega, by omega, by omega⟩

/-! ### FX55 and FX65 -/

/-- `FX55` leaves I alone, so the effective addresses stay (R92). -/
theorem after_storeRegs_effAddr (x : Reg) (s : State) (k : Nat) :
    (after (.storeRegs x) s).effAddr k = s.effAddr k := by
  obtain ⟨-, -, hi, -⟩ := after_respects (.storeRegs x) s
  rw [State.effAddr, hi rfl, State.effAddr]

/-- A register after `FX65`: loaded up to VX, kept above it (R93). -/
theorem after_loadRegs_getV (x k : Reg) (s : State) :
    (after (.loadRegs x) s).getV k = if k.val ≤ x.val then s.memRead (s.effAddr k.val) else s.getV k := by
  have hregs : ∀ j ∈ regsUpTo x, j < 16 := fun j hj => ((mem_regsUpTo x j).1 hj).trans_lt x.isLt
  have h := loadList_getV s (regsUpTo x) s hregs k
  simp only [mem_regsUpTo] at h
  exact h

/-- Settles O38: what `FX55` leaves at each of its addresses. -/
theorem storeRegistersFromI : Obligations.StoreRegistersFromI :=
  fun _ s => ⟨fun _ _ => rfl, encodedAs_of_formatXNN rfl rfl rfl,
    completes_accessMatrix fun _ hk => after_storeRegs_memRead s hk⟩

/-- Settles O39: what `FX65` leaves in each register up to VX. -/
theorem loadRegistersFromI : Obligations.LoadRegistersFromI :=
  fun x s => ⟨fun _ _ => rfl, encodedAs_of_formatXNN rfl rfl rfl,
    completes_accessMatrix fun k hk => (after_loadRegs_getV x k s).trans (if_pos hk)⟩

/-- Settles O40: the registers in between change neither I nor memory, so `FX65` reads each byte where `FX55` left
it. -/
theorem storeThenLoadRestoresTheRegisters : Obligations.StoreThenLoadRestoresTheRegisters := by
  intro x s t u v hstore hload k
  obtain rfl := eq_after_of_exec hstore
  obtain rfl := eq_after_of_exec hload
  rw [after_loadRegs_getV]
  refine if_ctx_congr Iff.rfl (fun hk => ?_) fun _ => rfl
  change (after (.storeRegs x) s).memRead ((after (.storeRegs x) s).effAddr k.val) = s.getV k
  rw [after_storeRegs_effAddr, after_storeRegs_memRead s hk]

/-! ### The index register -/

/-- Settles O36: one write of I each, with `zext16`, `mod4096` and `glyphAddr` as numbers. -/
theorem indexRegisterWrites : Obligations.IndexRegisterWrites := by
  refine fun nnn x s => ⟨encodedAs_of_encode rfl (formatNNN_toNat _ nnn), ?ldI,
    encodedAs_of_formatXNN rfl rfl rfl, ?addI, encodedAs_of_formatXNN rfl rfl rfl, ?ldF⟩
  case ldI => exact completes_accessMatrix (i := .ldI nnn) (zext16_toNat nnn)
  case addI => exact completes_accessMatrix (i := .addI x) (mod4096_toNat _)
  case ldF => exact completes_accessMatrix (i := .ldF x) (glyphAddr_toNat _)

end Sys2Proof.Machine

/-! ## The display

Which cell of a sprite covers which pixel is one relation; what a draw does to a pixel and to VF is `plotList_spec`
over the cells of the sprite, read through that relation. -/

namespace Sys2Proof.Machine

open Sys2Proof.Safety

/-! ### Sprites over the framebuffer -/

/-- Cell `(row, col)` of the sprite of `DXYN` covers the pixel `(px, py)`, with VX and VY read from `s` (R95, R96). -/
def SpriteCovers (x y : Reg) (n : Fin 16) (s : State) (row col : Nat) (px : Fin 64) (py : Fin 32) : Prop :=
  row < n.val ∧ col < 8 ∧ px.val = ((s.getV x).toNat + col) % 64 ∧ py.val = ((s.getV y).toNat + row) % 32

/-- The bit of the sprite at I in cell `(row, col)`, bit 7 leftmost (R96). -/
def State.spriteBitAt (s : State) (row col : Nat) : Bool := (s.memRead (s.i.toNat + row)).getLsbD (7 - col)

/-- The collision of R98: some pixel is on under a 1 bit. -/
def SpriteCollides (x y : Reg) (n : Fin 16) (s : State) : Prop :=
  ∃ row col px py, SpriteCovers x y n s row col px py ∧ pixel s.fb px py = true ∧ s.spriteBitAt row col = true

/-- The framebuffer and the collision bit that the loops of `DXYN` leave (R98). -/
def drawn (x y : Reg) (n : Fin 16) (s : State) : Framebuffer × Bool :=
  drawRows s (s.getV x).toNat (s.getV y).toNat (List.range n.val) (s.fb, false)

theorem columnOf_eq_iff (k : Nat) (px : Fin 64) : columnOf k = px ↔ px.val = k % 64 := by
  rw [Fin.ext_iff, eq_comm, columnOf, Fin.val_ofNat]

theorem lineOf_eq_iff (k : Nat) (py : Fin 32) : lineOf k = py ↔ py.val = k % 32 := by
  rw [Fin.ext_iff, eq_comm, lineOf, Fin.val_ofNat]

theorem flagByte_eq_one_iff (b : Bool) : flagByte b = 0x01#8 ↔ b = true := by cases b <;> decide

theorem flagByte_eq_zero_iff (b : Bool) : flagByte b = 0x00#8 ↔ b = false := by cases b <;> decide

/-- A byte that is not zero has a 1 bit in one of the eight columns of a sprite row. -/
theorem ne_zero_iff_exists_spriteBit (b : Byte) : b ≠ 0x00#8 ↔ ∃ col < 8, spriteBit b col = true := by
  constructor
  · intro h
    by_contra hbits
    refine h (BitVec.eq_of_getLsbD_eq fun j hj => ?_)
    have hcol : spriteBit b (7 - j) ≠ true := fun hbit => hbits ⟨7 - j, by omega, hbit⟩
    rw [spriteBit, Nat.sub_sub_self (Nat.le_of_lt_succ hj)] at hcol
    rw [Bool.eq_false_of_not_eq_true hcol, BitVec.getLsbD_zero]
  · rintro ⟨col, -, hbit⟩ rfl
    rw [spriteBit, BitVec.getLsbD_zero] at hbit
    exact Bool.false_ne_true hbit

/-- The sprite bit of the draw loops is the one of R96: reading memory reduces the address. -/
theorem State.spriteBit_effAddr (s : State) (row col : Nat) :
    spriteBit (s.memRead (s.effAddr row)) col = s.spriteBitAt row col := by
  rw [spriteBit, State.spriteBitAt, s.memRead_congr (s.effAddr_mod row)]

section

variable {x y : Reg} {n : Fin 16} {s t : State} {row col : Nat} {px : Fin 64} {py : Fin 32}

theorem spriteCovers_iff : SpriteCovers x y n s row col px py ↔
    (row, col) ∈ spriteCells n.val ∧ columnOf ((s.getV x).toNat + col) = px ∧
      lineOf ((s.getV y).toNat + row) = py := by
  rw [mem_spriteCells, columnOf_eq_iff, lineOf_eq_iff, SpriteCovers, and_assoc]

/-- Every cell of the sprite covers one pixel, so a collision is a matter of cells. -/
theorem spriteCollides_iff : SpriteCollides x y n s ↔ ∃ c ∈ spriteCells n.val,
    pixel s.fb (columnOf ((s.getV x).toNat + c.2)) (lineOf ((s.getV y).toNat + c.1)) = true ∧
      s.spriteBitAt c.1 c.2 = true := by
  constructor
  · rintro ⟨row, col, px, py, hcovers, h⟩
    obtain ⟨hcell, rfl, rfl⟩ := spriteCovers_iff.1 hcovers
    exact ⟨(row, col), hcell, h⟩
  · rintro ⟨⟨row, col⟩, hcell, h⟩
    exact ⟨row, col, _, _, spriteCovers_iff.2 ⟨hcell, rfl, rfl⟩, h⟩

theorem spriteCovers_congr (hx : t.getV x = s.getV x) (hy : t.getV y = s.getV y) :
    SpriteCovers x y n t row col px py ↔ SpriteCovers x y n s row col px py := by
  rw [SpriteCovers, hx, hy, SpriteCovers]

theorem not_spriteCollides_of_clear (hclear : ∀ px py, pixel s.fb px py = false) : ¬ SpriteCollides x y n s := by
  rintro ⟨row, col, px, py, -, hon, -⟩
  exact Bool.false_ne_true ((hclear px py).symm.trans hon)

theorem spriteCollides_iff_of_full (hfull : ∀ px py, pixel s.fb px py = true) :
    SpriteCollides x y n s ↔ ∃ row, row < n.val ∧ s.memRead (s.i.toNat + row) ≠ 0x00#8 := by
  simp only [spriteCollides_iff, hfull, true_and, Prod.exists, mem_spriteCells, and_assoc, exists_and_left,
    ne_zero_iff_exists_spriteBit, State.spriteBitAt, spriteBit]

/-! ### The draw -/

/-- The two loops of R98 are one loop over the cells of the sprite. -/
theorem drawn_eq (x y : Reg) (n : Fin 16) (s : State) : drawn x y n s =
    (spriteCells n.val).foldl (fun d c => plot d.1 d.2 (columnOf ((s.getV x).toNat + c.2))
      (lineOf ((s.getV y).toNat + c.1)) (s.spriteBitAt c.1 c.2)) (s.fb, false) := by
  simp only [drawn, drawRows_eq, State.spriteBit_effAddr]

/-- What a draw leaves: no two cells of the sprite meet, so each is plotted as if alone. -/
theorem drawn_spec (x y : Reg) (n : Fin 16) (s : State) :
    (∀ row col px py, SpriteCovers x y n s row col px py →
      pixel (drawn x y n s).1 px py = (pixel s.fb px py ^^ s.spriteBitAt row col)) ∧
    (∀ px py, (∀ row col, ¬ SpriteCovers x y n s row col px py) →
      pixel (drawn x y n s).1 px py = pixel s.fb px py) ∧
    ((drawn x y n s).2 = true ↔ SpriteCollides x y n s) := by
  obtain ⟨hcell, hother, hhit⟩ := plotList_spec (fun c : Nat × Nat => columnOf ((s.getV x).toNat + c.2))
    (fun c => lineOf ((s.getV y).toNat + c.1)) (fun c => s.spriteBitAt c.1 c.2)
    (spriteCells n.val) (spriteCells_pairwise _ _ n.val (by omega)) (s.fb, false)
  rw [← drawn_eq] at hcell hother hhit
  refine ⟨fun row col px py hcovers => ?_, fun px py hout => ?_, ?_⟩
  · obtain ⟨hmem, rfl, rfl⟩ := spriteCovers_iff.1 hcovers
    exact hcell (row, col) hmem
  · exact hother px py fun ⟨row, col⟩ hmem hat => hout row col (spriteCovers_iff.2 ⟨hmem, hat⟩)
  · rw [hhit, spriteCollides_iff, or_iff_right Bool.false_ne_true]

theorem after_drw_fb (x y : Reg) (n : Fin 16) (s : State) : (after (.drw x y n) s).fb = (drawn x y n s).1 := rfl

theorem after_drw_getV_flag (x y : Reg) (n : Fin 16) (s : State) :
    (after (.drw x y n) s).getV 15 = flagByte (drawn x y n s).2 :=
  State.getV_setV_same _ regF _

/-- A draw writes neither I nor memory, so the sprite stays (R98). -/
theorem after_drw_spriteBitAt (x y : Reg) (n : Fin 16) (s : State) (row col : Nat) :
    (after (.drw x y n) s).spriteBitAt row col = s.spriteBitAt row col := rfl

theorem after_drw_pixel_of_covers (h : SpriteCovers x y n s row col px py) :
    pixel (after (.drw x y n) s).fb px py = (pixel s.fb px py ^^ s.spriteBitAt row col) := by
  obtain ⟨hcovered, -, -⟩ := drawn_spec x y n s
  rw [after_drw_fb, hcovered row col px py h]

theorem after_drw_pixel_of_not_covers (h : ∀ row col, ¬ SpriteCovers x y n s row col px py) :
    pixel (after (.drw x y n) s).fb px py = pixel s.fb px py := by
  obtain ⟨-, hother, -⟩ := drawn_spec x y n s
  rw [after_drw_fb, hother px py h]

theorem after_drw_flag_eq_one_iff : (after (.drw x y n) s).getV 15 = 0x01#8 ↔ SpriteCollides x y n s := by
  obtain ⟨-, -, hhit⟩ := drawn_spec x y n s
  rw [after_drw_getV_flag, flagByte_eq_one_iff, hhit]

theorem after_drw_flag_eq_zero_iff : (after (.drw x y n) s).getV 15 = 0x00#8 ↔ ¬ SpriteCollides x y n s := by
  obtain ⟨-, -, hhit⟩ := drawn_spec x y n s
  rw [after_drw_getV_flag, flagByte_eq_zero_iff, ← Bool.not_eq_true, hhit]

/-- A second draw with the same coordinates undoes the first: a covered pixel is XORed twice with the same bit, every
other pixel is left alone twice (R99). -/
theorem after_drw_fb_of_drawn_before (ht : t = after (.drw x y n) s) (hx : t.getV x = s.getV x)
    (hy : t.getV y = s.getV y) : (after (.drw x y n) t).fb = s.fb := by
  refine framebuffer_ext fun px py => ?_
  by_cases h : ∃ row col, SpriteCovers x y n s row col px py
  · obtain ⟨row, col, hcovers⟩ := h
    rw [after_drw_pixel_of_covers ((spriteCovers_congr hx hy).2 hcovers), ht, after_drw_spriteBitAt,
      after_drw_pixel_of_covers hcovers, Bool.xor_assoc, Bool.xor_self, Bool.xor_false]
  · have hout (row col : Nat) : ¬ SpriteCovers x y n s row col px py := fun hcovers => h ⟨row, col, hcovers⟩
    rw [after_drw_pixel_of_not_covers fun row col hcovers => hout row col ((spriteCovers_congr hx hy).1 hcovers), ht,
      after_drw_pixel_of_not_covers hout]

end

/-! ### The obligations -/

/-- Settles O43: the statement spells out `SpriteCovers`, `State.spriteBitAt` and `SpriteCollides`, and names the
footprint of the access matrix. -/
theorem drawXorsEachSpritePixelOnce : Obligations.DrawXorsEachSpritePixelOnce := by
  refine fun x y n s => ⟨encodedAs_of_encode rfl (formatXYS_toNat _ x y (nib n)),
    completes_accessMatrix (i := .drw x y n) ⟨?_, ?_, ?_, ?_⟩⟩
  · exact fun _ _ _ _ hunder => after_drw_pixel_of_covers hunder
  · exact fun _ _ houtside => after_drw_pixel_of_not_covers houtside
  · exact after_drw_flag_eq_one_iff.2
  · exact after_drw_flag_eq_zero_iff.2

/-- Settles O44: both answers are the states `after` a draw. -/
theorem drawingTwiceRestoresTheFramebuffer : Obligations.DrawingTwiceRestoresTheFramebuffer := by
  intro x y n s t u hfirst hx hy hsecond
  rw [eq_after_of_exec hsecond]
  exact after_drw_fb_of_drawn_before (eq_after_of_exec hfirst) hx hy

/-- Settles O45: VF is the collision, which a clear screen rules out and a full one reduces to a 1 bit. -/
theorem collisionOnClearAndOnFullScreens : Obligations.CollisionOnClearAndOnFullScreens := by
  intro x y n s t h
  obtain rfl := eq_after_of_exec h
  exact ⟨fun hclear => after_drw_flag_eq_zero_iff.2 (not_spriteCollides_of_clear hclear),
    fun hfull => after_drw_flag_eq_one_iff.trans (spriteCollides_iff_of_full hfull)⟩

/-- Settles O42: the new framebuffer is the one filled with off pixels. -/
theorem clearScreenTurnsEveryPixelOff : Obligations.ClearScreenTurnsEveryPixelOff :=
  fun _ => ⟨encodedAs_of_encode (i := .cls) rfl rfl,
    completes_accessMatrix (i := .cls) fun px py => pixel_filled false px py⟩

end Sys2Proof.Machine

/-! ## Keys

The key that an instruction tests is the one that the low four bits of VX number, which is what `State.keyDown` reads.
The two skips are skips on that key; the key-wait moves PC and leaves what the access matrix leaves. -/

namespace Sys2Proof.Machine

open Sys2Proof.Safety

/-- The key that a register names is numbered by the low four bits of its value (R100). -/
theorem eq_keyIndex_of_val {k : Fin 16} {vx : Byte} (h : k.val = vx.toNat % 16) : k = keyIndex vx :=
  Fin.ext (h.trans (keyIndex_val vx).symm)

/-- Adding the advance again after taking it back gives PC, reduced (R103). -/
theorem State.advancePc_rollBackPc_pc_toNat (s : State) : s.rollBackPc.advancePc.pc.toNat = s.pc.toNat % 4096 := by
  rw [State.advancePc_pc_toNat, State.rollBackPc_pc, mod4096_toNat]
  omega

/-- The key-wait takes the advance back, and adds it again with the key down (R103). -/
theorem after_waitKey_pc_toNat (x : Reg) (s : State) : (after (.waitKey x) s).pc.toNat =
    if s.keyDown x = true then s.pc.toNat % 4096 else (4096 + s.pc.toNat - 2) % 4096 := by
  rw [after_waitKey, apply_ite BitVec.toNat, State.advancePc_rollBackPc_pc_toNat, State.rollBackPc_pc, mod4096_toNat]

/-- Settles O47: PC by the two lemmas on the key-wait, before and after the advance; registers and timers by its frame
and the end of the cycle. -/
theorem keyWaitRepeatsUntilItsKeyIsDown : Obligations.KeyWaitRepeatsUntilItsKeyIsDown := by
  intro x k s hk
  obtain rfl := eq_keyIndex_of_val hk
  refine ⟨encodedAs_of_formatXNN rfl rfl rfl, completes_accessMatrix (i := .waitKey x) (after_waitKey_pc_toNat x s),
    fun hdec => ⟨_, step_of_decode hdec, after_waitKey_advancePc_pc_toNat x s, ?_⟩⟩
  obtain ⟨hregs, -⟩ := after_respects (.waitKey x) s.advancePc
  obtain ⟨hdt, hst, -⟩ := endCycle_timers_of_eq (after_dt (i := .waitKey x) rfl s.advancePc)
    (after_st (i := .waitKey x) rfl s.advancePc)
  exact ⟨fun j => hregs j rfl, hdt, hst⟩

/-- Settles O46: `EX9E` is a skip on the key, `EXA1` a skip on its negation. -/
theorem keySkipsFollowTheKey : Obligations.KeySkipsFollowTheKey := by
  intro x k s hk
  obtain rfl := eq_keyIndex_of_val hk
  refine ⟨encodedAs_of_formatXNN rfl rfl rfl, ?skp, encodedAs_of_formatXNN rfl rfl rfl, ?sknp⟩
  case skp => exact completes_skipIf (taken := s.keyDown x) rfl Iff.rfl
  case sknp => exact completes_skipUnless (taken := !s.keyDown x) rfl Bool.not_iff_not

end Sys2Proof.Machine

/-! ## Timer instructions

`FX07` is one write of VX, `FX15` and `FX18` are one write of their timer. What the cycle then leaves is
`endCycle_timers` on the state after the handler. -/

namespace Sys2Proof.Machine

open Sys2Proof.Safety

/-- Settles O49: one write each, decayed by the end of the same cycle. -/
theorem timerInstructionsAndTheDecayOfTheirCycle : Obligations.TimerInstructionsAndTheDecayOfTheirCycle := by
  refine fun x s => ⟨encodedAs_of_formatXNN rfl rfl rfl, completes_setV rfl fun t ht => ht,
    encodedAs_of_formatXNN rfl rfl rfl, completes_accessMatrix (i := .ldDtVx x) rfl,
    encodedAs_of_formatXNN rfl rfl rfl, completes_accessMatrix (i := .ldStVx x) rfl,
    fun hdec => ⟨_, step_of_decode hdec, ?ldVxDt⟩, fun hdec => ⟨_, step_of_decode hdec, ?ldDtVx⟩,
    fun hdec => ⟨_, step_of_decode hdec, ?ldStVx⟩⟩
  case ldVxDt =>
    obtain ⟨hdt, -⟩ := endCycle_timers (after (.ldVxDt x) s.advancePc)
    exact ⟨s.advancePc.getV_setV_same x s.dt, hdt⟩
  case ldDtVx =>
    obtain ⟨hdt, -⟩ := endCycle_timers (after (.ldDtVx x) s.advancePc)
    exact hdt
  case ldStVx =>
    obtain ⟨-, hst, htone⟩ := endCycle_timers (after (.ldStVx x) s.advancePc)
    exact ⟨hst, htone⟩

end Sys2Proof.Machine

/-! ## Unknown words -/

namespace Sys2Proof.Machine

/-- Settles O13: the cycle is the end of `raise .unknownOpcode` on the advanced state, which writes the framebuffer and
DIAG. -/
theorem unknownOpcodeFillsTheDisplayAndGoesOn : Obligations.UnknownOpcodeFillsTheDisplayAndGoesOn := by
  intro s r hrej
  obtain ⟨hdt, hst, htone⟩ := endCycle_timers (raise .unknownOpcode s.advancePc)
  exact ⟨unknownCycle s, step_of_reject hrej, fun x y => pixel_filled true x y, raise_diag s.advancePc .unknownOpcode,
    s.advancePc_pc_toNat, hdt, hst, htone, fun _ => rfl, rfl, rfl, rfl, rfl, fun _ => rfl, rfl⟩

end Sys2Proof.Machine

/-! ## The host's operations

Reset is the power-on state over the same font, whose memory lists no byte and so reads as the reset contents. A load
that succeeds is the copy `loadBytes` on that state; the copied range ends within memory. -/

namespace Sys2Proof.Machine

/-! ### Observers -/

/-- Cell `(x, y)` of the display stands at index `y * 64 + x` (R121). -/
theorem displayCell_of_val (s : State) {x : Fin 64} {y : Fin 32} {c : Fin 2048} (h : c.val = y.val * 64 + x.val) :
    displayCell s c = pixel s.fb x y := by
  have hx : c.val % 64 = x.val := by omega
  have hy : c.val / 64 = y.val := by omega
  simp only [displayCell, display, hx, hy]

/-- Settles O52: a key after `set_key` is `getKey_setKey`, and the observers are fields. -/
theorem setKeyAndTheObservers : Obligations.SetKeyAndTheObservers :=
  fun s k pressed => ⟨fun j => getKey_setKey s k j pressed, rfl, fun _ _ _ h => displayCell_of_val s h,
    rfl, rfl, rfl, rfl⟩

/-! ### Reset and load -/

/-- Memory after reset: the font at 0x000 to 0x04F and zero above (R29, R128). -/
theorem hostReset_memRead (s : State) (a : Nat) :
    (hostReset s).memRead a = if h : a % 4096 < 80 then s.mem.font[a % 4096] else 0x00#8 := rfl

/-- Settles O50: the fields of the power-on state, with the memory by `hostReset_memRead`. -/
theorem resetGivesEveryResetValue : Obligations.ResetGivesEveryResetValue := by
  refine fun s => ⟨fun _ => Vector.getElem_replicate _, rfl, rfl, fun _ => Vector.getElem_replicate _, rfl, rfl, rfl,
    rfl, fun x y => pixel_filled false x y, fun _ => Vector.getElem_replicate _, rfl, rfl, fun a => ?font,
    fun a hlow hhigh => ?above, fun _ _ => rfl⟩
  case font =>
    have ha : a.val % 4096 = a.val := Nat.mod_eq_of_lt (by omega)
    simp only [hostReset_memRead, ha, a.isLt, dif_pos, Fin.getElem_fin]
  case above => rw [hostReset_memRead, dif_neg (by omega)]

/-- Settles O51: the copy is `loadBytes` on the reset state, read inside and outside the copied range. -/
theorem loadProgramCopiesOrRefuses : Obligations.LoadProgramCopiesOrRefuses := by
  refine fun bytes s => ⟨fun hlen => ?_, loadProgram_of_gt⟩
  have hroom : 0x200 + bytes.length ≤ 4096 := by omega
  rw [loadProgram_of_le hlen]
  refine ⟨rfl, loadBytes_memRead_mem _ _ _ hroom, fun a => loadBytes_memRead_other _ _ _ a hroom, ?_⟩
  rw [loadBytes_eq]

end Sys2Proof.Machine
